-- ==== Sys2Proof/Word.lean ====
section
/-! DEFINITION. The words of TM1640-ENC: bytes, 32-bit host operands and 72-bit command words. -/

namespace Sys2Proof

/-- A byte, `b[7:0]` (00_scope R6): a segment code or a byte on the wire. -/
abbrev Byte := BitVec 8

/-- A host operand field A or B, 32 bits, two's complement (30_encoding R66, decision D3). -/
abbrev Operand := BitVec 32

/-- A host command word, 72 bits: OPC[71:64], A[63:32], B[31:0] (30_encoding R66). -/
abbrev CommandWord := BitVec 72

end Sys2Proof
end

