-- ==== Sys2Proof/Config.lean ====
section
/-! DEFINITION. What an implementation fixes and no run changes (00_scope R5). The wire literals, SEG_TABLE and
MIRROR_NONDIGIT_WRITES stand in Machine/Params.lean. CFG_POSITION_COUNT and CFG_INIT_INTENSITY are input ports
(10_state R20) and stand in State. -/

namespace Sys2Proof.Config

/-- MIN_POS, the smallest legal position count (00_scope R5). -/
def minPos : Nat := 1

/-- MAX_POS, the largest legal position count and the number of SEGBUF entries (00_scope R5, 10_state R28). -/
def maxPos : Nat := 5

/-- T_STEP, the wall-clock duration of one bus step: an OPEN parameter on which no rule depends
(70_reset_and_hazards R163, decision D23, log entry 8). No definition of the model reads it. -/
opaque tStep : Nat

end Sys2Proof.Config
end

