-- ==== Sys2Proof/Syntax.lean ====
section
/-! DEFINITION. Every row of spec/opcode_table.json as a constructor: the nine HOSTCMD rows (30_encoding R68) and the
four WIRE rows (30_encoding R78). A reserved field is no operand: a word whose reserved field is not zero is illegal
(30_encoding R71) and is refused by Decode.lean. -/

namespace Sys2Proof

/-- The instructions. Host commands carry the fields A and B that their row gives a meaning (30_encoding R67, R68).
Wire bytes carry the bits that their row leaves to a field (30_encoding R78). -/
inductive Instr where
  /-- INIT, OPC 0x01: `initialize(position_count)`, A = requested position count (42_display_ops R107). -/
  | init (count : Operand)
  /-- INTENSITY, OPC 0x02: `set_intensity(level)`, A = level (42_display_ops R109). -/
  | intensity (level : Operand)
  /-- SHOWDIG, OPC 0x03: `show_digit(value, position)`, A = value, B = position (42_display_ops R111). -/
  | showdig (value position : Operand)
  /-- SHOWNUM, OPC 0x04: `show_number(n)`, A = n (42_display_ops R114). -/
  | shownum (n : Operand)
  /-- SHOWHEX, OPC 0x05: `show_hex(n)`, A = n (42_display_ops R119). -/
  | showhex (n : Operand)
  /-- SHOWDP, OPC 0x06: `show_decimal_point(position, visible)`, A = position, visible = CW[0] (42_display_ops R123). -/
  | showdp (position : Operand) (visible : Bool)
  /-- CLEAR, OPC 0x07: `clear()` (42_display_ops R126). -/
  | clear
  /-- ON, OPC 0x08: `on()` (42_display_ops R129). -/
  | on
  /-- OFF, OPC 0x09: `off()` (42_display_ops R130). -/
  | off
  /-- DATA_CMD, the wire byte 0x40, first and only byte of frame F_DATA (30_encoding R78, 41_framed_commands R96). -/
  | dataCmd
  /-- ADDR_CMD, the wire byte `0xC0 | address`, first byte of frame F_ADDR (30_encoding R78, 41_framed_commands R99). -/
  | addrCmd (address : BitVec 4)
  /-- DISP_CTRL, only byte of frame F_CTRL (30_encoding R78, 41_framed_commands R97). Bit 7 of the byte is always 1;
  `low` holds bits 6:0: the on flag at bit 3, the brightness at bits 2:0, and bits 6:4, which are zero when
  BRIGHT is at most 7 and any value when BRIGHT is unclamped (41_framed_commands R98). -/
  | dispCtrl (low : BitVec 7)
  /-- SEG_DATA, any byte, second byte of frame F_ADDR: the decimal point at bit 7, segments at bits 6:0
  (30_encoding R78, 10_state R29). -/
  | segData (code : Byte)
  deriving DecidableEq, Repr

/-- Where a byte stands in its frame. The kinds of wire byte are told apart by this and not by value (30_encoding R79). -/
inductive FramePos where
  /-- The only byte of a one-byte frame (F_DATA, F_CTRL). -/
  | only
  /-- The first byte of a two-byte frame (F_ADDR). -/
  | first
  /-- The second byte of a two-byte frame (F_ADDR). -/
  | second
  deriving DecidableEq, Repr

/-- A byte on DIO together with its place in its frame. -/
structure WireByte where
  pos : FramePos
  byte : Byte
  deriving DecidableEq, Repr

/-- What an instruction is encoded as: a host command word or a wire byte in its place (30_encoding R65). -/
inductive Code where
  | host (w : CommandWord)
  | wire (b : WireByte)
  deriving DecidableEq, Repr

/-- The row of spec/opcode_table.json an instruction belongs to. -/
def Instr.mnemonic : Instr → String
  | .init _ => "INIT"
  | .intensity _ => "INTENSITY"
  | .showdig _ _ => "SHOWDIG"
  | .shownum _ => "SHOWNUM"
  | .showhex _ => "SHOWHEX"
  | .showdp _ _ => "SHOWDP"
  | .clear => "CLEAR"
  | .on => "ON"
  | .off => "OFF"
  | .dataCmd => "DATA_CMD"
  | .addrCmd _ => "ADDR_CMD"
  | .dispCtrl _ => "DISP_CTRL"
  | .segData _ => "SEG_DATA"

/-- Whether an instruction is a host command (a HOSTCMD row) and not a wire byte (a WIRE row). -/
def Instr.isHost : Instr → Bool
  | .dataCmd | .addrCmd _ | .dispCtrl _ | .segData _ => false
  | .init _ | .intensity _ | .showdig _ _ | .shownum _ | .showhex _ | .showdp _ _ | .clear | .on | .off => true

end Sys2Proof
end

