-- ==== Sys2Proof/WellFormed.lean ====
section
/-! DEFINITION. Which instructions the encoding can express. Every operand value of every host command is legal
(30_encoding R73); the one check is on the address of ADDR_CMD. -/

namespace Sys2Proof

/-- An ADDR_CMD carries one of the addresses 0..4: "Chip addresses 5..15 are never written" (20_memory R58). Every
other field may hold every value of its width (30_encoding R73, R78). -/
def Instr.wellFormed : Instr → Bool
  | .init _ => true
  | .intensity _ => true
  | .showdig _ _ => true
  | .shownum _ => true
  | .showhex _ => true
  | .showdp _ _ => true
  | .clear => true
  | .on => true
  | .off => true
  | .dataCmd => true
  | .addrCmd address => decide (address.toNat < Config.maxPos)
  | .dispCtrl _ => true
  | .segData _ => true

/-- `wellFormed` as a proposition. -/
abbrev Instr.WellFormed (i : Instr) : Prop := i.wellFormed = true

end Sys2Proof
end

