-- ==== Sys2Proof/Decode.lean ====
section
/-! DEFINITION. From bits to instructions and back (30_encoding R65 to R79). Both decoders are total and reject by name. -/

namespace Sys2Proof

/-- Why a code is no instruction. The first two are the two ways a host command word is illegal (30_encoding R71); the
others are bytes the block never sends in that place of a frame (30_encoding R78, R79, 20_memory R58). -/
inductive DecodeError where
  /-- OPC is 0x00 or 0x0A..0xFF (30_encoding R71 (a)). -/
  | illegalOpcode
  /-- OPC names a command and a field its row marks reserved is not zero (30_encoding R71 (b)). -/
  | reservedNotZero
  /-- The only byte of a frame is neither DATA_CMD nor a DISP_CTRL. -/
  | notSoleByte
  /-- The first byte of a two-byte frame is no ADDR_CMD. -/
  | notAddressCommand
  /-- An ADDR_CMD with an address in 5..15. -/
  | addressNeverWritten
  deriving DecidableEq, Repr

/-- OPC = CW[71:64] (30_encoding R66). -/
def fieldOpc (w : CommandWord) : Byte := w.extractLsb' 64 8

/-- A = CW[63:32] (30_encoding R66). -/
def fieldA (w : CommandWord) : Operand := w.extractLsb' 32 32

/-- B = CW[31:0] (30_encoding R66). -/
def fieldB (w : CommandWord) : Operand := w.extractLsb' 0 32

/-- The command word `{o, a, b}` (00_scope R6). -/
def commandWord (o : Byte) (a b : Operand) : CommandWord := o ++ a ++ b

/-- The instruction `i`, if the reserved field is zero (30_encoding R71 (b)). -/
def ifReservedZero (zero : Bool) (i : Instr) : Except DecodeError Instr :=
  if zero then .ok i else .error .reservedNotZero

/-- The host command a command word encodes (30_encoding R66 to R71). -/
def decodeHost (w : CommandWord) : Except DecodeError Instr :=
  match (fieldOpc w).toNat with
  | 0x01 => ifReservedZero (fieldB w == 0) (.init (fieldA w))
  | 0x02 => ifReservedZero (fieldB w == 0) (.intensity (fieldA w))
  | 0x03 => .ok (.showdig (fieldA w) (fieldB w))
  | 0x04 => ifReservedZero (fieldB w == 0) (.shownum (fieldA w))
  | 0x05 => ifReservedZero (fieldB w == 0) (.showhex (fieldA w))
  | 0x06 => ifReservedZero (w.extractLsb' 1 31 == 0) (.showdp (fieldA w) (w.getLsbD 0))
  | 0x07 => ifReservedZero (fieldA w == 0 && fieldB w == 0) .clear
  | 0x08 => ifReservedZero (fieldA w == 0 && fieldB w == 0) .on
  | 0x09 => ifReservedZero (fieldA w == 0 && fieldB w == 0) .off
  | _ => .error .illegalOpcode

/-- The wire instruction a byte is, by its place in its frame (30_encoding R78, R79). Bit 7 of a DISP_CTRL byte is
always 1, so it never equals DATA_CMD. -/
def decodeWire (b : WireByte) : Except DecodeError Instr :=
  match b.pos with
  | .only =>
    if b.byte == 0x40#8 then .ok .dataCmd
    else if b.byte.getLsbD 7 then .ok (.dispCtrl (b.byte.extractLsb' 0 7))
    else .error .notSoleByte
  | .first =>
    if b.byte.extractLsb' 4 4 == 0xC#4 then
      if (b.byte.extractLsb' 0 4).toNat < Config.maxPos then .ok (.addrCmd (b.byte.extractLsb' 0 4))
      else .error .addressNeverWritten
    else .error .notAddressCommand
  | .second => .ok (.segData b.byte)

/-- Decode a code of either encoding (30_encoding R65). -/
def decode : Code → Except DecodeError Instr
  | .host w => decodeHost w
  | .wire b => decodeWire b

/-- `visible` as field B: bit 0, bits 31:1 zero (30_encoding R67, decision D22). -/
def visibleField (visible : Bool) : Operand := if visible then 1 else 0

/-- The code of an instruction (30_encoding R66 to R69, R78). Reserved fields are 0. -/
def encode : Instr → Code
  | .init count => .host (commandWord 0x01 count 0)
  | .intensity level => .host (commandWord 0x02 level 0)
  | .showdig value position => .host (commandWord 0x03 value position)
  | .shownum n => .host (commandWord 0x04 n 0)
  | .showhex n => .host (commandWord 0x05 n 0)
  | .showdp position visible => .host (commandWord 0x06 position (visibleField visible))
  | .clear => .host (commandWord 0x07 0 0)
  | .on => .host (commandWord 0x08 0 0)
  | .off => .host (commandWord 0x09 0 0)
  | .dataCmd => .wire ⟨.only, 0x40⟩
  | .addrCmd address => .wire ⟨.first, 0xC#4 ++ address⟩
  | .dispCtrl low => .wire ⟨.only, 1#1 ++ low⟩
  | .segData code => .wire ⟨.second, code⟩

/-- A row of the table of 30_encoding R69: a mnemonic's match and mask. -/
structure HostRow where
  mnemonic : String
  value : CommandWord
  mask : CommandWord
  deriving DecidableEq, Repr

/-- The table of 30_encoding R69. The decoder above does not read it: that it agrees with it is a statement. -/
def hostRows : List HostRow := [
  ⟨"INIT",      0x01_00000000_00000000, 0xFF_00000000_FFFFFFFF⟩,
  ⟨"INTENSITY", 0x02_00000000_00000000, 0xFF_00000000_FFFFFFFF⟩,
  ⟨"SHOWDIG",   0x03_00000000_00000000, 0xFF_00000000_00000000⟩,
  ⟨"SHOWNUM",   0x04_00000000_00000000, 0xFF_00000000_FFFFFFFF⟩,
  ⟨"SHOWHEX",   0x05_00000000_00000000, 0xFF_00000000_FFFFFFFF⟩,
  ⟨"SHOWDP",    0x06_00000000_00000000, 0xFF_00000000_FFFFFFFE⟩,
  ⟨"CLEAR",     0x07_00000000_00000000, 0xFF_FFFFFFFF_FFFFFFFF⟩,
  ⟨"ON",        0x08_00000000_00000000, 0xFF_FFFFFFFF_FFFFFFFF⟩,
  ⟨"OFF",       0x09_00000000_00000000, 0xFF_FFFFFFFF_FFFFFFFF⟩]

/-- The place in a frame a lone byte of the opcode table is taken to have: the WIRE row whose match and mask it meets,
the SEG_DATA row (mask 0x00) meeting every byte that meets no other. The hardware tells the kinds apart by place
(30_encoding R79); this reading by value is the model's own, for a table word that comes without its frame
(log entry 2). -/
def framePosByValue (b : Byte) : FramePos :=
  if b == 0x40#8 then .only
  else if b.extractLsb' 4 4 == 0xC#4 then .first
  else if b.extractLsb' 4 4 == 0x8#4 then .only
  else .second

/-- The code of a table word of `nbits` bits: 72 for the HOSTCMD rows, 8 for the WIRE rows. -/
def tableCode (nbits w : Nat) : Option Code :=
  if nbits == 72 then some (.host (BitVec.ofNat 72 w))
  else if nbits == 8 then some (.wire ⟨framePosByValue (BitVec.ofNat 8 w), BitVec.ofNat 8 w⟩)
  else none

/-- The instruction the decoder reads from a table word whose bits, as spec/opcode_table.json numbers them, are `w`. -/
def decodeTableWord (nbits w : Nat) : Option Instr :=
  (tableCode nbits w).bind fun c => (decode c).toOption

end Sys2Proof
end

