-- ==== Sys2Proof/Machine/State.lean ====
section
/-! DEFINITION. The state of TM1640-ENC (10_state R20 to R39) as plain data, the reasons a step can stop, and the state
right after reset (70_reset_and_hazards R150). -/

namespace Sys2Proof.Machine

/-- The two bus lines (10_state R22). -/
inductive Line where
  | clk
  | dio
  deriving DecidableEq, Repr

/-- A line-write event `(line, v)` of the bus trace (40_bus_primitives R85). A level is a Bool: true is 1. -/
structure Event where
  line : Line
  level : Bool
  deriving DecidableEq, Repr

/-- The segment buffer SEGBUF as an address space (20_memory R45): its (position, byte) pairs in canonical form,
positions strictly rising, no entry equal to 0x00, which is what an unlisted position reads as. -/
abbrev Memory := List Host.Cell

/-- The architectural state S of 10_state R31: every register of 10_state R23 other than SEQ and READY. -/
structure Arch where
  /-- LINE_CLK (10_state R22). -/
  lineClk : Bool
  /-- LINE_DIO (10_state R22). -/
  lineDio : Bool
  /-- POSCNT, 3 bits, legal values 1..5 (10_state R24). -/
  posCnt : BitVec 3
  /-- SEGBUF[0..4] (10_state R28). -/
  segBuf : Memory
  /-- DISP_ON (10_state R25). -/
  dispOn : Bool
  /-- BRIGHT, 8 bits (10_state R26). -/
  bright : Byte
  /-- ILL, the sticky illegal-command flag (10_state R35). -/
  ill : Bool
  deriving DecidableEq, Repr

/-- SEQ, the sequencer state (10_state R30). In `busy e rest post` the non-empty list of line-write events still to be
emitted is `e :: rest`, and `post` is the architectural state committed at its end. -/
inductive Seq where
  | construct
  | idle
  | busy (e : Event) (rest : List Event) (post : Arch)
  /-- THE MODEL'S OWN, no value of the block's SEQ: the transport layer is about to send one wire byte alone. No step
  leads here, whatever the inputs, and neither does reset: only the placing of a table word does (log entry 2). -/
  | transport (b : WireByte)
  deriving DecidableEq, Repr

/-- The values of the input ports sampled in a bus step (10_state R20): all that the host can do to the block
(60_exceptions R149). -/
structure Ports where
  /-- RESET. -/
  reset : Bool
  /-- CMD_VALID. -/
  cmdValid : Bool
  /-- CMD_WORD. -/
  cmdWord : CommandWord
  /-- CFG_POSITION_COUNT. -/
  cfgPositionCount : Operand
  /-- CFG_INIT_INTENSITY. -/
  cfgInitIntensity : Operand
  deriving DecidableEq, Repr

/-- The machine. `arch`, `ready` and `seq` are the registers of 10_state R23; `ports` are the inputs sampled in the
coming step; `future` and `trace` are the model's own (log entries 3 and 4). -/
structure State where
  /-- The architectural state. -/
  arch : Arch
  /-- READY (10_state R36). -/
  ready : Bool
  /-- SEQ (10_state R30). -/
  seq : Seq
  /-- The input values of the coming step. -/
  ports : Ports
  /-- The input values of the steps after it, one entry a step; when none is left the ports hold. -/
  future : List Ports
  /-- The line writes emitted so far, oldest first: the block's output history, read by nothing (10_state R38). -/
  trace : List Event
  deriving DecidableEq, Repr

/-- The copy of S on which an operation runs, and the line-write events it has made so far, NEWEST FIRST
(30_encoding R70); `Copy.trace` of Machine/Ops.lean is the trace in order. -/
structure Copy where
  arch : Arch
  emitted : List Event
  deriving DecidableEq, Repr

/-- The display power state machine's states (10_state R37): Off, or On at a brightness. -/
inductive Power where
  | off
  | on (brightness : Byte)
  deriving DecidableEq, Repr

/-- Why a step faults. The block's one exception, IllegalCommand, is no fault of the model: it is a next state
(60_exceptions R136). -/
inductive Fault where
  /-- Raised by an instruction that reduces a position modulo POSCNT, or clears POSCNT positions, in a state whose
  POSCNT is outside 1..5. 10_state R24 says those values never occur, so no run raises it. Safe: the model stops. -/
  | posCountRange
  deriving DecidableEq, Repr

/-- Why a step is refused. -/
inductive Refusal where
  /-- Raised by an arm of `exec` for an instruction that has no meaning yet. Safe: the model stops. -/
  | notModelled (mnemonic : String)
  /-- Raised by a step from the model's own SEQ value `transport` with a byte that the block never sends in that place
  of a frame (30_encoding R78, R79). Safe: the model stops, and the hardware has no such value. -/
  | wireByteNotSent (why : DecodeError)
  deriving DecidableEq, Repr

/-- The input values right after reset: RESET low again and nothing offered. The spec gives inputs no value; these are
the model's (DESIGN CHOICE, log entry 5). -/
def Ports.atReset : Ports where
  reset := false
  cmdValid := false
  cmdWord := 0
  cfgPositionCount := 0
  cfgInitIntensity := 0

/-- The registers' reset values (70_reset_and_hazards R150, 10_state R23). -/
def Arch.atReset : Arch where
  lineClk := true
  lineDio := true
  posCnt := 4
  segBuf := []
  dispOn := false
  bright := 0x00
  ill := false

/-- The machine right after reset (70_reset_and_hazards R150): construction pending, READY low. -/
def State.reset : State where
  arch := Arch.atReset
  ready := false
  seq := .construct
  ports := Ports.atReset
  future := []
  trace := []

end Sys2Proof.Machine
end

