-- ==== Sys2Proof/Machine/Params.lean ====
section
/-! DEFINITION. The parameters of 00_scope R5 that fix bytes and choices of this hardware. -/

namespace Sys2Proof.Machine

/-- DEFAULT_POS, the position count used when the requested one is out of range (00_scope R5, 42_display_ops R106). -/
def defaultPos : Nat := 4

/-- BRIGHT_MAX_EXT, the largest external intensity before clamping (00_scope R5). -/
def brightMaxExt : Int := 8

/-- CMD_DATA, the data command byte (00_scope R5). -/
def cmdData : Byte := 0x40

/-- CMD_ADDR_BASE, the address command base (00_scope R5). -/
def cmdAddrBase : Byte := 0xC0

/-- CMD_CTRL_BASE, the display-control base (00_scope R5). -/
def cmdCtrlBase : Byte := 0x80

/-- ON_VALUE, what the on flag adds to the control byte when active (00_scope R5, 10_state R25). -/
def onValue : Byte := 8

/-- SEG_MINUS, the minus-sign segment code (00_scope R5). -/
def segMinus : Byte := 0x40

/-- SEG_DP, the decimal-point bit (00_scope R5). -/
def segDp : Byte := 0x80

/-- SEG_TABLE, the segment lookup table (10_state R33). PRESUMED: a named parameter of the spec, fixed here to the
default font that 10_state R33 and 93 G1 give from general knowledge (log entry 6). -/
def segTable : Vector Byte 16 :=
  #v[0x3F, 0x06, 0x5B, 0x4F, 0x66, 0x6D, 0x7D, 0x07, 0x7F, 0x6F, 0x77, 0x7C, 0x39, 0x5E, 0x79, 0x71]

/-- MIRROR_NONDIGIT_WRITES: whether the minus-sign write and the decimal-point write also update SEGBUF; true for this
hardware (00_scope R5, decision D10, log entry 7). -/
def mirrorNondigitWrites : Bool := true

end Sys2Proof.Machine
end

