-- ==== Sys2Proof/Machine/Operands.lean ====
section
/-! DEFINITION. Operand forms and arithmetic on operands (00_scope R7, R8, R12): everything is computed on integers,
exactly, and narrowed at the end. -/

namespace Sys2Proof.Machine

/-- `sint32(w)`: the integer whose 32-bit two's complement form is `w` (00_scope R6, 30_encoding R67). -/
def sint32 (w : Operand) : Int := w.toInt

/-- `Wrap(p) = p mod POSCNT`, Euclidean (20_memory R46, 00_scope R7). -/
def wrap (posCnt : BitVec 3) (p : Int) : Nat := (p % (posCnt.toNat : Int)).toNat

/-- Whether POSCNT is one of its legal values 1..5 (10_state R24). -/
def posCntLegal (posCnt : BitVec 3) : Bool :=
  decide (Config.minPos ≤ posCnt.toNat ∧ posCnt.toNat ≤ Config.maxPos)

/-- `PosCount(a)`: `a` when it is in 1..5, and 4, not the nearest, otherwise (42_display_ops R106). -/
def posCount (a : Int) : BitVec 3 :=
  if (Config.minPos : Int) ≤ a ∧ a ≤ (Config.maxPos : Int) then BitVec.ofInt 3 a else BitVec.ofNat 3 defaultPos

/-- `SEG_TABLE[value mod 16]`, the only read of the table (20_memory R49). -/
def segCode (value : Int) : Byte :=
  segTable[(value % 16).toNat]'(by omega)

/-- `abs(v)`, exact (00_scope R8, decision D14). -/
def magnitude (v : Int) : Nat := v.natAbs

/-- The units digit (42_display_ops R113). -/
def dec3 (m : Nat) : Nat := m % 10

/-- The tens digit (42_display_ops R113). -/
def dec2 (m : Nat) : Nat := m / 10 % 10

/-- The hundreds digit (42_display_ops R113). -/
def dec1 (m : Nat) : Nat := m / 100 % 10

/-- The thousands digit (42_display_ops R113). -/
def dec0 (m : Nat) : Nat := m / 1000 % 10

/-- Bits 3:0 (42_display_ops R117). -/
def hex3 (m : Nat) : Nat := m % 16

/-- Bits 7:4 (42_display_ops R117). -/
def hex2 (m : Nat) : Nat := (m >>> 4) % 16

/-- Bits 11:8 (42_display_ops R117). -/
def hex1 (m : Nat) : Nat := (m >>> 8) % 16

/-- Bits 15:12 (42_display_ops R117). -/
def hex0 (m : Nat) : Nat := (m >>> 12) % 16

/-- The brightness an intensity v ≥ 1 stores: `min(v, 8) - 1` (42_display_ops R109). -/
def storedBrightness (v : Int) : Byte := BitVec.ofInt 8 (min v brightMaxExt - 1)

/-- `CFG_INIT_INTENSITY[7:0]`, neither clamped nor reduced by one (10_state R26, 42_display_ops R108 (b)). -/
def initBrightness (cfg : Operand) : Byte := cfg.extractLsb' 0 8

/-- The address command byte `0xC0 | (p mod POSCNT)` (41_framed_commands R99, 20_memory R58). -/
def addrByte (posCnt : BitVec 3) (p : Int) : Byte := cmdAddrBase ||| BitVec.ofNat 8 (wrap posCnt p)

/-- The byte SHOWDP writes: bit 7 set when visible, cleared when not, bits 6:0 kept (42_display_ops R123). -/
def withPoint (visible : Bool) (old : Byte) : Byte := if visible then old ||| segDp else old &&& 0x7F

end Sys2Proof.Machine
end

