-- ==== Sys2Proof/Machine/Flags.lean ====
section
/-! DEFINITION. The block's two flags DISP_ON and ILL (10_state R34), the display-control byte they and BRIGHT make
(10_state R27), and the display power state (10_state R37). -/

namespace Sys2Proof.Machine

/-- `CtrlByte() = (0x80 | (DISP_ON ? 8 : 0) | BRIGHT)[7:0]`; BRIGHT is not masked (10_state R27, 41_framed_commands R98). -/
def ctrlByte (a : Arch) : Byte := cmdCtrlBase ||| (if a.dispOn then onValue else 0) ||| a.bright

/-- The display power state: Off with any BRIGHT, or On at BRIGHT (10_state R37). -/
def power (a : Arch) : Power := if a.dispOn then .on a.bright else .off

/-- `DISP_ON <- v` (10_state R34). -/
def Arch.setDispOn (v : Bool) (a : Arch) : Arch := { a with dispOn := v }

/-- `BRIGHT <- v` (10_state R26). -/
def Arch.setBright (v : Byte) (a : Arch) : Arch := { a with bright := v }

/-- `ILL <- 1` (10_state R35). -/
def Arch.setIll (a : Arch) : Arch := { a with ill := true }

end Sys2Proof.Machine
end

