-- ==== Sys2Proof/Machine/Ops.lean ====
section
/-! DEFINITION. The named operations over registers, lines and SEGBUF, the acceptance of an operation's result
(10_state R31), the one exception of the block (60_exceptions R136) and reset (70_reset_and_hazards R150). -/

namespace Sys2Proof.Machine

/-! ### SEGBUF as an address space -/

/-- What an unlisted position of SEGBUF reads as: its reset value (70_reset_and_hazards R150). -/
def unlistedByte : Byte := 0x00

/-- `MemRead(p, 1)`: the byte at position `p`, with no side effect (20_memory R47). -/
def memRead : Memory → Nat → Byte
  | [], _ => unlistedByte
  | (a, b) :: m, p => if a = p then b else memRead m p

/-- `MemWrite(p, 1, v)`: `SEGBUF[p] <- v`, keeping the canonical form (20_memory R48). -/
def memWrite (p : Nat) (v : Byte) : Memory → Memory
  | [] => if v = unlistedByte then [] else [(p, v)]
  | (a, b) :: m =>
    if p < a then (if v = unlistedByte then (a, b) :: m else (p, v) :: (a, b) :: m)
    else if p = a then (if v = unlistedByte then m else (p, v) :: m)
    else (a, b) :: memWrite p v m

/-- The canonical form from position `lo` on: positions strictly rising, each one of SEGBUF's five entries
(10_state R28), no entry equal to what an unlisted position reads as. -/
def Memory.wfFrom (lo : Nat) : Memory → Bool
  | [] => true
  | (a, b) :: m => decide (lo ≤ a) && decide (a < Config.maxPos) && !(b == unlistedByte) && Memory.wfFrom (a + 1) m

/-- The canonical form of SEGBUF. -/
def Memory.wf (m : Memory) : Bool := Memory.wfFrom 0 m

/-! ### Register updates -/

/-- `LINE_CLK <- v` or `LINE_DIO <- v` (10_state R22). -/
def Arch.setLine (line : Line) (v : Bool) (a : Arch) : Arch :=
  match line with
  | .clk => { a with lineClk := v }
  | .dio => { a with lineDio := v }

/-- The lines of `a`, everything else of `post` (the commit of 10_state R31, "keeping LINE_CLK, LINE_DIO"). -/
def Arch.keepLines (a post : Arch) : Arch := { post with lineClk := a.lineClk, lineDio := a.lineDio }

/-- `POSCNT <- n` (10_state R24). -/
def Arch.setPosCnt (n : BitVec 3) (a : Arch) : Arch := { a with posCnt := n }

/-- Every entry of SEGBUF <- 0x00: the allocation of the buffer (42_display_ops R107). -/
def Arch.zeroSegBuf (a : Arch) : Arch := { a with segBuf := [] }

/-- `SEGBUF[p] <- v` (20_memory R48). -/
def Arch.writeSeg (p : Nat) (v : Byte) (a : Arch) : Arch := { a with segBuf := memWrite p v a.segBuf }

/-! ### Running an operation on a copy (30_encoding R70) -/

/-- The copy of S an operation starts on, with an empty trace. -/
def copyOf (s : State) : Copy := ⟨s.arch, []⟩

/-- The trace an operation has made on its copy, oldest event first (30_encoding R70). -/
def Copy.trace (c : Copy) : List Event := c.emitted.reverse

/-- `LineWrite(line, v)`: the event is added at the end of the trace and the line takes the level
(40_bus_primitives R85). -/
def lineWrite (line : Line) (v : Bool) (c : Copy) : Copy :=
  ⟨c.arch.setLine line v, ⟨line, v⟩ :: c.emitted⟩

/-- A register or SEGBUF assignment of the pseudocode: it updates the copy and emits nothing (30_encoding R70). -/
def assign (f : Arch → Arch) (c : Copy) : Copy := ⟨f c.arch, c.emitted⟩

/-- What the IDLE and CONSTRUCT cases of the sequencer do with `(S', trace)` (10_state R31): an empty trace is committed
at once, any other is emitted from the next step on, READY low. -/
def accept (s : State) (c : Copy) : State :=
  match c.trace with
  | [] => { s with arch := c.arch, ready := true, seq := .idle }
  | e :: rest => { s with ready := false, seq := .busy e rest c.arch }

/-- Run an operation on a copy of S and accept its result (10_state R31, 30_encoding R70). -/
def launch (op : Copy → Copy) (s : State) : Host.Outcome State Fault Refusal :=
  .next (accept s (op (copyOf s)))

/-- `launch` for an operation that uses the position count: it stops when POSCNT is outside 1..5, which no run reaches
(10_state R24, log entry 9). -/
def launchWrapping (op : Copy → Copy) (s : State) : Host.Outcome State Fault Refusal :=
  if posCntLegal s.arch.posCnt then launch op s else .fault .posCountRange

/-! ### The exception and reset -/

/-- Taking IllegalCommand, the block's only exception: ILL <- 1, nothing else changes, the trace is empty, READY stays 1
(60_exceptions R136, R140). No state is saved and no control is transferred, so there is no return (60_exceptions R141). -/
def raiseIllegalCommand (s : State) : State := accept s ((copyOf s |> assign Arch.setIll))

/-- A step in which RESET is sampled high (70_reset_and_hazards R150): the registers take their reset values, the rest of
a trace and its pending state are abandoned (R154). Forcing the lines high is no line-write event. -/
def resetStep (s : State) : State :=
  { s with arch := Arch.atReset, ready := false, seq := .construct }

/-- A BUSY step: emit the event `e`, then commit `post` if it was the last (10_state R31). -/
def emitStep (e : Event) (rest : List Event) (post : Arch) (s : State) : State :=
  let arch := s.arch.setLine e.line e.level
  match rest with
  | [] => { s with arch := arch.keepLines post, ready := true, seq := .idle, trace := s.trace ++ [e] }
  | e' :: rest' => { s with arch := arch, seq := .busy e' rest' post, trace := s.trace ++ [e] }

/-- The environment moves on: the next input values are sampled in the next step; with none left the ports hold
(log entry 4). -/
def advancePorts (s : State) : State :=
  match s.future with
  | [] => s
  | p :: ps => { s with ports := p, future := ps }

/-- Apply a function to the state of a `next` outcome. -/
def mapNext (f : State → State) : Host.Outcome State Fault Refusal → Host.Outcome State Fault Refusal
  | .next s => .next (f s)
  | .fault r => .fault r
  | .refused r => .refused r

end Sys2Proof.Machine
end

