-- ==== Sys2Proof/Machine/Transport.lean ====
section
/-! DEFINITION. The transport layer: bus primitives (40_bus_primitives), framed commands (41_framed_commands), and the
meanings of the four WIRE rows of spec/opcode_table.json. -/

namespace Sys2Proof.Machine

/-- `Start()`: DIO low, CLK low (40_bus_primitives R86). -/
def start (c : Copy) : Copy := c |> lineWrite .dio false |> lineWrite .clk false

/-- `Stop()`: DIO low, CLK high, DIO high (40_bus_primitives R88). -/
def stop (c : Copy) : Copy := c |> lineWrite .dio false |> lineWrite .clk true |> lineWrite .dio true

/-- One bit of a byte: CLK low, DIO at the bit, CLK high (40_bus_primitives R90). -/
def writeBit (v : Bool) (c : Copy) : Copy := c |> lineWrite .clk false |> lineWrite .dio v |> lineWrite .clk true

/-- `WriteByte(b)`: eight bits, least significant first, then the trailing strobe CLK high, CLK low
(40_bus_primitives R90, 20_memory R50). -/
def writeByte (b : Byte) (c : Copy) : Copy :=
  (List.range 8).foldl (fun c i => writeBit (b.getLsbD i) c) c |> lineWrite .clk true |> lineWrite .clk false

/-- `Frame(bytes)`: Start, the bytes in order, Stop (41_framed_commands R95). -/
def frame (bytes : List Byte) (c : Copy) : Copy := bytes.foldl (fun c b => writeByte b c) (start c) |> stop

/-- `SendDataCommand()`, frame F_DATA (41_framed_commands R96). -/
def sendDataCommand (c : Copy) : Copy := frame [cmdData] c

/-- `SendDisplayControl()`, frame F_CTRL (41_framed_commands R97). -/
def sendDisplayControl (c : Copy) : Copy := frame [ctrlByte c.arch] c

/-- `WriteAddressedByte(address, data)`: F_DATA, F_ADDR, F_CTRL; it touches no register but the lines
(41_framed_commands R99, R103). -/
def writeAddressedByte (address : Int) (data : Byte) (c : Copy) : Copy :=
  sendDataCommand c |> frame [addrByte c.arch.posCnt address, data] |> sendDisplayControl

/-- DATA_CMD, first and only byte of F_DATA: the whole frame (41_framed_commands R96). -/
def execDataCmd (s : State) : Host.Outcome State Fault Refusal := launch sendDataCommand s

/-- ADDR_CMD, first byte of F_ADDR: Start and the byte `0xC0 | (address mod POSCNT)` (41_framed_commands R99). The frame
stays open for the SEG_DATA that follows it. -/
def execAddrCmd (address : BitVec 4) (s : State) : Host.Outcome State Fault Refusal :=
  launchWrapping (fun c => start c |> writeByte (addrByte c.arch.posCnt address.toNat)) s

/-- DISP_CTRL, only byte of F_CTRL: the whole frame with the byte given (41_framed_commands R97, R98). It writes no
register. When the byte is CtrlByte() this is SendDisplayControl(). -/
def execDispCtrl (low : BitVec 7) (s : State) : Host.Outcome State Fault Refusal :=
  launch (frame [cmdCtrlBase ||| low.zeroExtend 8]) s

/-- SEG_DATA, second byte of F_ADDR: the byte, then Stop (41_framed_commands R99, 30_encoding R79). -/
def execSegData (code : Byte) (s : State) : Host.Outcome State Fault Refusal :=
  launch (fun c => writeByte code c |> stop) s

end Sys2Proof.Machine
end

