-- ==== Sys2Proof/Machine/Display.lean ====
section
/-! DEFINITION. The display encoder: the display operations and the meanings of the nine HOSTCMD rows of
spec/opcode_table.json (42_display_ops). -/

namespace Sys2Proof.Machine

/-! ### The segment-writing helpers (42_display_ops R105) -/

/-- `SetDigitAt(value, position)` (42_display_ops R105). -/
def setDigitAt (value position : Int) (c : Copy) : Copy :=
  assign (fun a => a.writeSeg (wrap a.posCnt position) (segCode value)) c |> writeAddressedByte position (segCode value)

/-- `WriteRaw(position, byte)`; `mirror` is MIRROR_NONDIGIT_WRITES (42_display_ops R105, decision D10). -/
def writeRaw (mirror : Bool) (position : Int) (byte : Byte) (c : Copy) : Copy :=
  (if mirror then assign (fun a => a.writeSeg (wrap a.posCnt position) byte) c else c)
    |> writeAddressedByte position byte

/-! ### The operations -/

/-- `Clear()`: positions in ascending order (42_display_ops R126). -/
def clearAll (c : Copy) : Copy :=
  (List.range c.arch.posCnt.toNat).foldl
    (fun c i => writeAddressedByte (i : Int) 0x00 c |> assign (fun a => a.writeSeg i 0x00)) c

/-- `On()` (42_display_ops R129). -/
def turnOn (c : Copy) : Copy := assign (Arch.setDispOn true) c |> sendDataCommand |> sendDisplayControl

/-- `Off()` (42_display_ops R130). -/
def turnOff (c : Copy) : Copy := assign (Arch.setDispOn false) c |> sendDataCommand |> sendDisplayControl

/-- `Initialize(A)`; `cfg` is CFG_INIT_INTENSITY (42_display_ops R107). -/
def constructDisplay (cfg : Operand) (count : Int) (c : Copy) : Copy :=
  assign (Arch.setPosCnt (posCount count)) c
    |> assign Arch.zeroSegBuf
    |> assign (Arch.setBright (initBrightness cfg))
    |> assign (Arch.setDispOn true)
    |> clearAll

/-- `SetIntensity(v)` (42_display_ops R109). -/
def setIntensity (v : Int) (c : Copy) : Copy :=
  if v < 1 then turnOff c
  else
    assign (Arch.setDispOn true) c
      |> assign (Arch.setBright (storedBrightness v))
      |> sendDataCommand
      |> sendDisplayControl

/-- The shape shared by `ShowNumber` and `ShowHex` (42_display_ops R114, R118): the minus sign or the leading digit at
position 0, then the digits of positions 3, 2 and 1. -/
def showDigits (mirror negative : Bool) (d0 d1 d2 d3 : Nat) (c : Copy) : Copy :=
  (if negative then writeRaw mirror 0 segMinus c else setDigitAt d0 0 c)
    |> setDigitAt d3 3 |> setDigitAt d2 2 |> setDigitAt d1 1

/-- `ShowNumber(n)` (42_display_ops R113, R114). -/
def showNumber (mirror : Bool) (n : Int) (c : Copy) : Copy :=
  let m := magnitude n
  showDigits mirror (decide (n < 0)) (dec0 m) (dec1 m) (dec2 m) (dec3 m) c

/-- `ShowHex(n)`: the nibbles are those of the magnitude (42_display_ops R117, R119, R120 (e)). -/
def showHex (mirror : Bool) (n : Int) (c : Copy) : Copy :=
  let m := magnitude n
  showDigits mirror (decide (n < 0)) (hex0 m) (hex1 m) (hex2 m) (hex3 m) c

/-- `ShowDecimalPoint(position, visible)` (42_display_ops R123). -/
def showDecimalPoint (mirror : Bool) (position : Int) (visible : Bool) (c : Copy) : Copy :=
  let p := wrap c.arch.posCnt position
  writeRaw mirror (p : Int) (withPoint visible (memRead c.arch.segBuf p)) c

/-! ### The meanings -/

/-- INIT (42_display_ops R107, R108). CFG_INIT_INTENSITY is sampled in this step (70_reset_and_hazards R158). -/
def execInit (count : Operand) (s : State) : Host.Outcome State Fault Refusal :=
  launch (constructDisplay s.ports.cfgInitIntensity (sint32 count)) s

/-- INTENSITY (42_display_ops R109, R110). -/
def execIntensity (level : Operand) (s : State) : Host.Outcome State Fault Refusal :=
  launch (setIntensity (sint32 level)) s

/-- SHOWDIG (42_display_ops R111, R112). -/
def execShowdig (value position : Operand) (s : State) : Host.Outcome State Fault Refusal :=
  launchWrapping (setDigitAt (sint32 value) (sint32 position)) s

/-- SHOWNUM (42_display_ops R114 to R116). -/
def execShownum (n : Operand) (s : State) : Host.Outcome State Fault Refusal :=
  launchWrapping (showNumber mirrorNondigitWrites (sint32 n)) s

/-- SHOWHEX (42_display_ops R119, R120). -/
def execShowhex (n : Operand) (s : State) : Host.Outcome State Fault Refusal :=
  launchWrapping (showHex mirrorNondigitWrites (sint32 n)) s

/-- SHOWDP (42_display_ops R123 to R125). -/
def execShowdp (position : Operand) (visible : Bool) (s : State) : Host.Outcome State Fault Refusal :=
  launchWrapping (showDecimalPoint mirrorNondigitWrites (sint32 position) visible) s

/-- CLEAR (42_display_ops R126, R127). -/
def execClear (s : State) : Host.Outcome State Fault Refusal := launchWrapping clearAll s

/-- ON (42_display_ops R129). -/
def execOn (s : State) : Host.Outcome State Fault Refusal := launch turnOn s

/-- OFF (42_display_ops R130). -/
def execOff (s : State) : Host.Outcome State Fault Refusal := launch turnOff s

end Sys2Proof.Machine
end

