-- ==== Sys2Proof/Machine/Dispatch.lean ====
section
/-! DEFINITION. One arm per constructor of Instr. -/

namespace Sys2Proof.Machine

/-- The meaning of an instruction: what the sequencer does with it when it accepts it (10_state R31, 30_encoding R70). -/
def exec (i : Instr) (s : State) : Host.Outcome State Fault Refusal :=
  match i with
  | .init count => Sys2Proof.Machine.execInit count s
  | .intensity level => Sys2Proof.Machine.execIntensity level s
  | .showdig value position => Sys2Proof.Machine.execShowdig value position s
  | .shownum n => Sys2Proof.Machine.execShownum n s
  | .showhex n => Sys2Proof.Machine.execShowhex n s
  | .showdp position visible => Sys2Proof.Machine.execShowdp position visible s
  | .clear => Sys2Proof.Machine.execClear s
  | .on => Sys2Proof.Machine.execOn s
  | .off => Sys2Proof.Machine.execOff s
  | .dataCmd => Sys2Proof.Machine.execDataCmd s
  | .addrCmd address => Sys2Proof.Machine.execAddrCmd address s
  | .dispCtrl low => Sys2Proof.Machine.execDispCtrl low s
  | .segData code => Sys2Proof.Machine.execSegData code s

end Sys2Proof.Machine
end

