-- ==== Sys2Proof/Machine/Sequencer.lean ====
section
/-! DEFINITION. The sequencer's bus step (10_state R31), reset first, then emission, then acceptance (60_exceptions R139). -/

namespace Sys2Proof.Machine

/-- Accept a command word: run the command it encodes, or raise IllegalCommand (30_encoding R70, R71). -/
def acceptWord (w : CommandWord) (s : State) : Host.Outcome State Fault Refusal :=
  match decodeHost w with
  | .ok i => exec i s
  | .error _ => .next (raiseIllegalCommand s)

/-- Run the byte of the model's own SEQ value `transport` (log entry 2). -/
def acceptWire (b : WireByte) (s : State) : Host.Outcome State Fault Refusal :=
  match decodeWire b with
  | .ok i => exec i s
  | .error why => .refused (.wireByteNotSent why)

/-- The INIT word of the construction run, `{0x01, CFG_POSITION_COUNT, 0x00000000}` (10_state R31,
70_reset_and_hazards R151). -/
def constructWord (s : State) : CommandWord := commandWord 0x01 s.ports.cfgPositionCount 0

/-- The IDLE case of 10_state R31: accept the word offered while READY is 1, else nothing changes. -/
def idleStep (s : State) : Host.Outcome State Fault Refusal :=
  if s.ports.cmdValid && s.ready then acceptWord s.ports.cmdWord s else .next s

/-- The step with RESET low: the three cases of 10_state R31, and that of the model's own SEQ value (log entry 2). -/
def sequencerStep (s : State) : Host.Outcome State Fault Refusal :=
  match s.seq with
  | .construct => acceptWord (constructWord s) s
  | .idle => idleStep s
  | .busy e rest post => .next (emitStep e rest post s)
  | .transport b => acceptWire b s

/-- One bus step of the block, for the input values sampled in it (60_exceptions R139). -/
def blockStep (s : State) : Host.Outcome State Fault Refusal :=
  if s.ports.reset then .next (resetStep s) else sequencerStep s

/-- One bus step of the block and of its environment. -/
def cycle (s : State) : Host.Outcome State Fault Refusal := mapNext advancePorts (blockStep s)

/-- The state in which the very next step runs the table word `w` of `nbits` bits. A command word is offered on the
command port to a block that is IDLE and READY, as after a construction run; a wire byte stands in the model's own SEQ
value, with READY low as in every state that is not IDLE. RESET is low (log entries 2 and 10). -/
def placeTableWord (s : State) (nbits w : Nat) : State :=
  match tableCode nbits w with
  | some (.host cw) =>
    { s with ready := true, seq := .idle,
             ports := { s.ports with reset := false, cmdValid := true, cmdWord := cw } }
  | some (.wire b) =>
    { s with ready := false, seq := .transport b, ports := { s.ports with reset := false } }
  | none => s

end Sys2Proof.Machine
end

