-- ==== Sys2Proof/Machine/Assembler.lean ====
section
/-! DEFINITION. The assembler of 30_encoding R75, R76: one line per command, a mnemonic, then operands separated by
commas. Lines are lists of characters, so that a proof can evaluate them. -/

namespace Sys2Proof.Machine

/-- A blank: a space or a tab. -/
def isBlank (c : Char) : Bool := c == ' ' || c == '\t'

/-- A line without leading and trailing blanks. -/
def trimBlanks (cs : List Char) : List Char := ((cs.dropWhile isBlank).reverse.dropWhile isBlank).reverse

/-- The value of a decimal or hexadecimal digit below `base`. -/
def digitValue (base : Nat) (c : Char) : Option Nat :=
  let n := c.toNat
  let v :=
    if 48 ≤ n && n ≤ 57 then some (n - 48)
    else if 65 ≤ n && n ≤ 70 then some (n - 55)
    else if 97 ≤ n && n ≤ 102 then some (n - 87)
    else none
  v.filter (· < base)

/-- The digits of a literal, most significant first, added to the value read so far. -/
def digitsValue (base : Nat) (acc : Nat) : List Char → Option Nat
  | [] => some acc
  | c :: cs => (digitValue base c).bind fun d => digitsValue base (acc * base + d) cs

/-- An unsigned literal: `0x` and hexadecimal digits, or decimal digits. -/
def unsignedLiteral : List Char → Option Nat
  | [] => none
  | ['0', 'x'] => none
  | '0' :: 'x' :: cs => digitsValue 16 0 cs
  | cs => digitsValue 10 0 cs

/-- An operand: a literal with an optional leading `-` (30_encoding R75). -/
def literal : List Char → Option Int
  | '-' :: cs => (unsignedLiteral cs).map fun n => -(n : Int)
  | cs => (unsignedLiteral cs).map fun n => (n : Int)

/-- The operand field of an integer in [-2^31, 2^31 - 1]; any other does not assemble (30_encoding R75). -/
def operandField (v : Int) : Option Operand :=
  if -(2 ^ 31) ≤ v ∧ v ≤ 2 ^ 31 - 1 then some (BitVec.ofInt 32 v) else none

/-- The text between commas. -/
def splitCommas (cs : List Char) : List (List Char) :=
  match cs with
  | [] => [[]]
  | c :: cs =>
    if c == ',' then [] :: splitCommas cs
    else
      match splitCommas cs with
      | [] => [[c]]
      | part :: parts => (c :: part) :: parts

/-- The operands of a line, after its mnemonic. -/
def lineOperands (cs : List Char) : Option (List Operand) :=
  if trimBlanks cs == [] then some []
  else (splitCommas cs).mapM fun part => (literal (trimBlanks part)).bind operandField

/-- A command from its mnemonic in capitals and its operands; a wrong number of operands, or a `visible` other than 0
or 1, does not assemble, and no form has defaults (30_encoding R75, R76). -/
def assembleCommand (mnemonic : List Char) (operands : List Operand) : Option Instr :=
  match mnemonic, operands with
  | ['I', 'N', 'I', 'T'], [count] => some (.init count)
  | ['I', 'N', 'T', 'E', 'N', 'S', 'I', 'T', 'Y'], [level] => some (.intensity level)
  | ['S', 'H', 'O', 'W', 'D', 'I', 'G'], [value, position] => some (.showdig value position)
  | ['S', 'H', 'O', 'W', 'N', 'U', 'M'], [n] => some (.shownum n)
  | ['S', 'H', 'O', 'W', 'H', 'E', 'X'], [n] => some (.showhex n)
  | ['S', 'H', 'O', 'W', 'D', 'P'], [position, visible] =>
    if visible == 0 then some (.showdp position false)
    else if visible == 1 then some (.showdp position true)
    else none
  | ['C', 'L', 'E', 'A', 'R'], [] => some .clear
  | ['O', 'N'], [] => some .on
  | ['O', 'F', 'F'], [] => some .off
  | _, _ => none

/-- Assemble one line: `;` starts a comment, mnemonics are case-insensitive (30_encoding R75). -/
def assembleLine (line : List Char) : Option Instr :=
  let code := trimBlanks (line.takeWhile (· != ';'))
  (lineOperands (code.dropWhile (!isBlank ·))).bind
    (assembleCommand ((code.takeWhile (!isBlank ·)).map Char.toUpper))

/-- Assemble one line of text. -/
def assemble (line : String) : Option Instr := assembleLine line.toList

end Sys2Proof.Machine
end

