-- ==== Sys2Proof/Machine/Frames.lean ====
section
/-! DEFINITION. The bus trace read without the machine's state: the events of a byte and of a frame
(40_bus_primitives R86 to R90, 41_framed_commands R95, R101), the frames and the addressed writes of every command
(30_encoding R79, 42_display_ops R132), and what a chip that stores addressed writes would hold (20_memory R64). -/

namespace Sys2Proof.Machine

/-- The two events of Start (40_bus_primitives R86). -/
def startTrace : List Event := [⟨.dio, false⟩, ⟨.clk, false⟩]

/-- The three events of Stop (40_bus_primitives R88). -/
def stopTrace : List Event := [⟨.dio, false⟩, ⟨.clk, true⟩, ⟨.dio, true⟩]

/-- The three events of one bit (40_bus_primitives R90). -/
def bitTrace (v : Bool) : List Event := [⟨.clk, false⟩, ⟨.dio, v⟩, ⟨.clk, true⟩]

/-- The bits of a byte, least significant first (20_memory R50). -/
def lsbFirst (b : Byte) : List Bool := (List.range 8).map b.getLsbD

/-- The 26 events of WriteByte (40_bus_primitives R90). -/
def byteTrace (b : Byte) : List Event := (lsbFirst b).flatMap bitTrace ++ [⟨.clk, true⟩, ⟨.clk, false⟩]

/-- The 26·k + 5 events of a frame of k bytes (41_framed_commands R95). -/
def frameTrace (bytes : List Byte) : List Event := startTrace ++ bytes.flatMap byteTrace ++ stopTrace

/-- The events of frames sent one after the other. -/
def framesTrace (frames : List (List Byte)) : List Event := frames.flatMap frameTrace

/-- Frame F_DATA (30_encoding R79). -/
def dataFrame : List Byte := [cmdData]

/-- Frame F_CTRL (30_encoding R79). -/
def ctrlFrame (a : Arch) : List Byte := [ctrlByte a]

/-- The three frames of an addressed write of `data` to position `p` (41_framed_commands R99). -/
def addressedFrames (a : Arch) (p : Int) (data : Byte) : List (List Byte) :=
  [dataFrame, [addrByte a.posCnt p, data], ctrlFrame a]

/-- The addressed writes of a four-digit number, in the order of 42_display_ops R114 and R119: the byte at position 0,
then units, tens and hundreds (as the digits `d3`, `d2`, `d1`) at positions 3, 2 and 1. -/
def digitWrites (negative : Bool) (d0 d1 d2 d3 : Nat) : List (Int × Byte) :=
  [(0, if negative then segMinus else segCode d0), (3, segCode d3), (2, segCode d2), (1, segCode d1)]

/-- One addressed write of 0x00 to each of the positions 0 .. n-1, ascending (42_display_ops R126). -/
def zeroWrites (n : Nat) : List (Int × Byte) := (List.range n).map fun (p : Nat) => ((p : Int), (0x00 : Byte))

/-- The addressed writes of a host command on the state `a`, in order, as (position argument, data byte)
(42_display_ops R107 to R126). The commands of R128 and R109 send none. -/
def commandWrites (i : Instr) (a : Arch) : List (Int × Byte) :=
  match i with
  | .init count => zeroWrites (posCount (sint32 count)).toNat
  | .showdig value position => [(sint32 position, segCode (sint32 value))]
  | .shownum n =>
    digitWrites (decide (sint32 n < 0)) (dec0 (magnitude (sint32 n))) (dec1 (magnitude (sint32 n)))
      (dec2 (magnitude (sint32 n))) (dec3 (magnitude (sint32 n)))
  | .showhex n =>
    digitWrites (decide (sint32 n < 0)) (hex0 (magnitude (sint32 n))) (hex1 (magnitude (sint32 n)))
      (hex2 (magnitude (sint32 n))) (hex3 (magnitude (sint32 n)))
  | .showdp position visible =>
    [(sint32 position, withPoint visible (memRead a.segBuf (wrap a.posCnt (sint32 position))))]
  | .clear => zeroWrites a.posCnt.toNat
  | .intensity _ | .on | .off | .dataCmd | .addrCmd _ | .dispCtrl _ | .segData _ => []

/-- The registers whose values the control bytes of a host command carry: those the command has set before it sends
anything (42_display_ops R107, R109, R129, R130). `cfg` is CFG_INIT_INTENSITY. -/
def commandRegs (i : Instr) (cfg : Operand) (a : Arch) : Arch :=
  match i with
  | .init count => { a with posCnt := posCount (sint32 count), bright := initBrightness cfg, dispOn := true }
  | .intensity level =>
    if sint32 level < 1 then { a with dispOn := false }
    else { a with dispOn := true, bright := storedBrightness (sint32 level) }
  | .on => { a with dispOn := true }
  | .off => { a with dispOn := false }
  | .showdig _ _ | .shownum _ | .showhex _ | .showdp _ _ | .clear => a
  | .dataCmd | .addrCmd _ | .dispCtrl _ | .segData _ => a

/-- The frames of a host command, in order (42_display_ops R132). -/
def commandFrames (i : Instr) (cfg : Operand) (a : Arch) : List (List Byte) :=
  match i with
  | .intensity _ | .on | .off => [dataFrame, ctrlFrame (commandRegs i cfg a)]
  | .init _ | .showdig _ _ | .shownum _ | .showhex _ | .showdp _ _ | .clear =>
    (commandWrites i a).flatMap fun w => addressedFrames (commandRegs i cfg a) w.1 w.2
  | .dataCmd | .addrCmd _ | .dispCtrl _ | .segData _ => []

/-- SEGBUF after addressed writes, each mirrored at its wrapped position, in order (42_display_ops R105). -/
def mirrorWrites (posCnt : BitVec 3) (writes : List (Int × Byte)) (m : Memory) : Memory :=
  writes.foldl (fun m w => memWrite (wrap posCnt w.1) w.2 m) m

/-- The registers a host command leaves, the lines high (42_display_ops R133, R134): those it sets before it sends
anything, and SEGBUF after its writes (INIT starts from a buffer of zeros). -/
def commandPost (i : Instr) (cfg : Operand) (a : Arch) : Arch :=
  { commandRegs i cfg a with
    lineClk := true, lineDio := true,
    segBuf := match i with
      | .init _ => []
      | .intensity _ | .showdig _ _ | .shownum _ | .showhex _ | .showdp _ _ | .clear | .on | .off =>
        mirrorWrites a.posCnt (commandWrites i a) a.segBuf
      | .dataCmd | .addrCmd _ | .dispCtrl _ | .segData _ => a.segBuf }

/-- The data byte of the last addressed write to chip address `p` among these frames, if there is one (20_memory R64). -/
def lastWritten (p : Nat) : List (List Byte) → Option Byte
  | [] => none
  | f :: fs =>
    match lastWritten p fs with
    | some d => some d
    | none =>
      match f with
      | [b, d] => if b = cmdAddrBase ||| BitVec.ofNat 8 p then some d else none
      | _ => none

/-- The level of a line after a list of events, from a level before it (10_state R22). -/
def levelAfter (line : Line) (v : Bool) : List Event → Bool
  | [] => v
  | e :: es => levelAfter line (if e.line = line then e.level else v) es

end Sys2Proof.Machine
end

