-- ==== Sys2Proof/Machine/Monitor.lean ====
section
/-! DEFINITION. The reference bus monitor of 40_bus_primitives R93: a test oracle that reads the frames back from a
trace. It is no claim about the chip. -/

namespace Sys2Proof.Machine

/-- The monitor: the current levels, the bits of the open frame if one is open (in the order sampled), and the frames
closed so far. -/
structure Monitor where
  clk : Bool
  dio : Bool
  bits : Option (List Bool)
  frames : List (List Byte)
  deriving DecidableEq, Repr

/-- The byte whose bits, least significant first, are these. -/
def byteOfBits (bits : List Bool) : Byte := bits.foldr (fun v b => (b <<< 1) ||| (if v then 1 else 0)) 0

/-- Groups of eight bits as bytes; a last group of fewer than eight is dropped (no trace of the block leaves one). -/
def bytesOfBits : List Bool → List Byte
  | b0 :: b1 :: b2 :: b3 :: b4 :: b5 :: b6 :: b7 :: rest =>
    byteOfBits [b0, b1, b2, b3, b4, b5, b6, b7] :: bytesOfBits rest
  | _ => []

/-- One event, as 40_bus_primitives R93 lists them: a DIO fall with CLK high opens a frame, a CLK rise inside an open
frame samples DIO, a DIO rise with CLK high closes the frame, dropping the last bit sampled. -/
def Monitor.event (m : Monitor) (e : Event) : Monitor :=
  match e.line with
  | .dio =>
    if m.clk && m.dio && !e.level then { m with dio := e.level, bits := some [] }
    else if m.clk && !m.dio && e.level then
      match m.bits with
      | some bits => { m with dio := e.level, bits := none, frames := m.frames ++ [bytesOfBits bits.dropLast] }
      | none => { m with dio := e.level }
    else { m with dio := e.level }
  | .clk =>
    if !m.clk && e.level then { m with clk := e.level, bits := m.bits.map (· ++ [m.dio]) }
    else { m with clk := e.level }

/-- The monitor on an idle bus with both lines high, no frame open. -/
def Monitor.atIdle : Monitor := ⟨true, true, none, []⟩

/-- The frames the monitor reads from a trace that starts on an idle bus. -/
def monitorFrames (trace : List Event) : List (List Byte) := (trace.foldl Monitor.event Monitor.atIdle).frames

/-- The rising edges of CLK in a trace from a level, each with the level of DIO at that moment (40_bus_primitives R91). -/
def risingEdges (clk dio : Bool) : List Event → List Bool
  | [] => []
  | ⟨.clk, v⟩ :: es => (if !clk && v then [dio] else []) ++ risingEdges v dio es
  | ⟨.dio, v⟩ :: es => risingEdges clk v es

/-- The number of falling edges of CLK in a trace from a level (40_bus_primitives R91). -/
def fallingEdges (clk : Bool) : List Event → Nat
  | [] => 0
  | ⟨.clk, v⟩ :: es => (if clk && !v then 1 else 0) + fallingEdges v es
  | ⟨.dio, _⟩ :: es => fallingEdges clk es

end Sys2Proof.Machine
end

