-- ==== Sys2Proof/Safety.lean ====
section
/-! DEFINITION. The terms claims use: legal states, the invariant every step keeps, the state an accepted operation
leads to, quiet inputs, and a run of a host program (70_reset_and_hazards R164). -/

namespace Sys2Proof.Machine

/-- The registers are as every run leaves them: POSCNT in 1..5 (10_state R24), SEGBUF canonical, and its entries from
POSCNT on at 0x00 (10_state R28). -/
def Arch.Legal (a : Arch) : Prop :=
  posCntLegal a.posCnt = true ∧ Memory.wf a.segBuf = true ∧ ∀ p, a.posCnt.toNat ≤ p → memRead a.segBuf p = 0x00

/-- Both lines are high: the idle bus (41_framed_commands R102). -/
def Arch.LinesHigh (a : Arch) : Prop := a.lineClk = true ∧ a.lineDio = true

/-- What SEQ promises about the registers: the bus is idle unless a trace runs; the pending state of a trace is legal,
has the lines the trace leaves (10_state R32), both high (41_framed_commands R102), and the present ILL. The model's own
value is ruled out (log entry 2). -/
def SeqConsistent (a : Arch) : Seq → Prop
  | .construct => a.LinesHigh
  | .idle => a.LinesHigh
  | .busy e rest post =>
    post.Legal ∧ post.LinesHigh ∧ post.ill = a.ill ∧
      levelAfter .clk a.lineClk (e :: rest) = post.lineClk ∧ levelAfter .dio a.lineDio (e :: rest) = post.lineDio
  | .transport _ => False

/-- The invariant of the machine. It asks nothing of the input ports, now or to come. -/
def Inv (s : State) : Prop :=
  s.arch.Legal ∧ (s.ready = true ↔ s.seq = .idle) ∧ SeqConsistent s.arch s.seq

/-- The state in which an accepted operation with a non-empty trace leaves the machine: nothing emitted yet, READY low,
the trace and the registers to commit in SEQ (10_state R31). -/
def launched (s : State) (trace : List Event) (post : Arch) : State :=
  match trace with
  | [] => s
  | e :: rest => { s with ready := false, seq := .busy e rest post }

/-- `AW(p, d)` of 42_display_ops: the three frames of an addressed write to the wrapped address `p` with data `d`, the
control byte being `ctrl` (41_framed_commands R103, 95_test_vectors). -/
def awFrames (ctrl : Byte) (p : Nat) (d : Byte) : List (List Byte) :=
  [[0x40], [0xC0 ||| BitVec.ofNat 8 p, d], [ctrl]]

/-- The registers `a` with both lines high, as every framed command leaves them (41_framed_commands R102). -/
def Arch.onIdleBus (a : Arch) : Arch := { a with lineClk := true, lineDio := true }

/-- The lines of `a` after a trace, everything else of `a` (10_state R22). -/
def Arch.afterTrace (a : Arch) (trace : List Event) : Arch :=
  { a with lineClk := levelAfter .clk a.lineClk trace, lineDio := levelAfter .dio a.lineDio trace }

/-- RESET is low in this step and in the `n - 1` steps after it. -/
def QuietFor (n : Nat) (s : State) : Prop := s.ports.reset = false ∧ ∀ p ∈ s.future.take (n - 1), p.reset = false

/-- A host that offers the words of a program in order, each as soon as READY = 1 (70_reset_and_hazards R164). -/
structure HostRun where
  machine : State
  pending : List CommandWord
  deriving DecidableEq, Repr

/-- The machine with the host's next word on the command port, or nothing offered when none is left. -/
def HostRun.offered (r : HostRun) : State :=
  { r.machine with ports := { r.machine.ports with
      reset := false, cmdValid := !r.pending.isEmpty, cmdWord := r.pending.headD 0 } }

/-- One bus step of the host and the block. The handshake is a step with CMD_VALID = 1 and READY = 1; after it the host
offers the next word (70_reset_and_hazards R157). -/
def HostRun.step (r : HostRun) : Host.Outcome HostRun Fault Refusal :=
  match Machine.step r.offered with
  | .next s => .next ⟨s, if r.machine.ready then r.pending.drop 1 else r.pending⟩
  | .fault why => .fault why
  | .refused why => .refused why

/-- The end of a run: every word accepted and READY = 1 with SEQ = IDLE (70_reset_and_hazards R164). -/
def HostRun.ended (r : HostRun) : Bool := r.pending.isEmpty && r.machine.ready && decide (r.machine.seq = .idle)

end Sys2Proof.Machine
end

