-- ==== Sys2Proof/Certificates/Slice0/Obligations.lean ====
section
/-! DEFINITION. The statements for the provers, each from the numbered rules of spec/ that its docstring names.

A result statement says which word the command is and what accepting it does. There `launched s trace regs` is the state
in which the accepted instruction leaves the machine: READY low, SEQ = BUSY with that trace to emit and those registers
to commit, nothing else changed (10_state R31).
`awFrames ctrl p d` are the three frames of an addressed write (41_framed_commands R99). -/

open Sys2Proof Sys2Proof.Machine

/-! ### Encoding -/

/-- Decode and encode agree: every well-formed instruction of both encodings is decoded from its code, with every operand
at every value (30_encoding R66, R67, R68, R78, R79). -/
def Obligations.DecodeOfEncodeIsTheInstruction : Prop :=
  ∀ i : Instr, i.WellFormed → decode (encode i) = .ok i

/-- Nothing else decodes to an instruction: a code that decodes is the code of the well-formed instruction it decodes to,
so no bit of a word or of a byte in its place is ignored (30_encoding R70, R71, R79). -/
def Obligations.EncodeOfDecodeIsTheCode : Prop :=
  ∀ (c : Code) (i : Instr), decode c = .ok i → encode i = c ∧ i.WellFormed

/-- The decoder selects a mnemonic exactly on the match and mask of the table of 30_encoding R69, and no word meets two
of its rows. -/
def Obligations.MnemonicExactlyOnMatchAndMask : Prop :=
  (∀ (w : CommandWord), ∀ row ∈ hostRows,
    w &&& row.mask = row.value ↔ ∃ i, decodeHost w = .ok i ∧ i.mnemonic = row.mnemonic) ∧
  (∀ (w : CommandWord), ∀ r₁ ∈ hostRows, ∀ r₂ ∈ hostRows,
    w &&& r₁.mask = r₁.value → w &&& r₂.mask = r₂.value → r₁ = r₂)

/-- A word is illegal exactly when its OPC is 0x00 or 0x0A..0xFF, or a field its row marks reserved is not zero; its
acceptance changes nothing but ILL, emits no line write and leaves READY 1 (30_encoding R71, 60_exceptions R136). -/
def Obligations.IllegalWordsAndTheirEffect : Prop :=
  ∀ (w : CommandWord) (s : State),
    let opc := (fieldOpc w).toNat
    let illegal :=
      (opc = 0 ∨ 0x0A ≤ opc) ∨
      ((opc = 0x01 ∨ opc = 0x02 ∨ opc = 0x04 ∨ opc = 0x05) ∧ fieldB w ≠ 0) ∨
      (opc = 0x06 ∧ 2 ≤ (fieldB w).toNat) ∨
      ((opc = 0x07 ∨ opc = 0x08 ∨ opc = 0x09) ∧ (fieldA w ≠ 0 ∨ fieldB w ≠ 0))
    ((∃ why, decodeHost w = .error why) ↔ illegal) ∧
    (illegal → acceptWord w s = .next { s with arch := { s.arch with ill := true }, ready := true, seq := .idle })

/-- Words written out from the encodings of the spec decode to the instructions they stand for (30_encoding R66 to R68,
R77, R78). That a lone wire byte is read by its value is the model's choice (log entry 2). -/
def Obligations.WordsOfTheSpecDecode : Prop :=
  decodeTableWord 72 0x01_00000004_00000000 = some (.init 4) ∧
  decodeTableWord 72 0x02_80000000_00000000 = some (.intensity 0x80000000) ∧
  decodeTableWord 72 0x03_0000000A_00000002 = some (.showdig 10 2) ∧
  decodeTableWord 72 0x04_FFFFFFF9_00000000 = some (.shownum (-7)) ∧
  decodeTableWord 72 0x05_000002AF_00000000 = some (.showhex 0x2AF) ∧
  decodeTableWord 72 0x06_00000001_00000001 = some (.showdp 1 true) ∧
  decodeTableWord 72 0x07_00000000_00000000 = some .clear ∧
  decodeTableWord 72 0x08_00000000_00000000 = some .on ∧
  decodeTableWord 72 0x09_00000000_00000000 = some .off ∧
  decodeTableWord 8 0x40 = some .dataCmd ∧
  decodeTableWord 8 0xC3 = some (.addrCmd 3) ∧
  decodeTableWord 8 0x8F = some (.dispCtrl 0x0F) ∧
  decodeTableWord 8 0x00 = some (.segData 0x00)

/-- The encoding examples of 30_encoding R77: the assembler reads each line, and its code is the word given. -/
def Obligations.EncodingExamplesAssemble : Prop :=
  (assemble "INIT 4").map encode = some (.host 0x01_00000004_00000000) ∧
  (assemble "INIT 9").map encode = some (.host 0x01_00000009_00000000) ∧
  (assemble "INTENSITY 0").map encode = some (.host 0x02_00000000_00000000) ∧
  (assemble "INTENSITY 8").map encode = some (.host 0x02_00000008_00000000) ∧
  (assemble "SHOWDIG 10, 2").map encode = some (.host 0x03_0000000A_00000002) ∧
  (assemble "SHOWDIG -1, -1").map encode = some (.host 0x03_FFFFFFFF_FFFFFFFF) ∧
  (assemble "SHOWNUM 42").map encode = some (.host 0x04_0000002A_00000000) ∧
  (assemble "SHOWNUM -7").map encode = some (.host 0x04_FFFFFFF9_00000000) ∧
  (assemble "SHOWHEX 0x2AF").map encode = some (.host 0x05_000002AF_00000000) ∧
  (assemble "SHOWDP 1, 1").map encode = some (.host 0x06_00000001_00000001) ∧
  (assemble "SHOWDP 1, 0").map encode = some (.host 0x06_00000001_00000000) ∧
  (assemble "CLEAR").map encode = some (.host 0x07_00000000_00000000) ∧
  (assemble "ON").map encode = some (.host 0x08_00000000_00000000) ∧
  (assemble "OFF").map encode = some (.host 0x09_00000000_00000000)

/-! ### Operands -/

/-- `PosCount(a)` is `a` in 1..5 and 4 otherwise (42_display_ops R106). -/
def Obligations.PosCountDefaultsToFour : Prop :=
  ∀ a : Int, ((posCount a).toNat : Int) = if 1 ≤ a ∧ a ≤ 5 then a else 4

/-- On a legal position count, the address byte of every position argument, negative ones included, is
`0xC0 | (p mod POSCNT)`: its bits 7:4 are 1100 and it lies in 0xC0 .. 0xC0 + POSCNT - 1 (20_memory R46, R58,
41_framed_commands R100). -/
def Obligations.AddressBytesStayInRange : Prop :=
  ∀ (n : BitVec 3) (p : Int), posCntLegal n = true →
    ((addrByte n p).toNat : Int) = 0xC0 + p % (n.toNat : Int) ∧ (addrByte n p).extractLsb' 4 4 = 0xC#4 ∧
      0xC0 ≤ (addrByte n p).toNat ∧ (addrByte n p).toNat < 0xC0 + n.toNat

/-- For every 32-bit value the segment table is read at value[3:0], and the byte read has bit 7 = 0 (20_memory R49,
10_state R33). The bytes themselves are the default font, the model's choice (log entry 6). -/
def Obligations.SegmentTableIndexIsTheLowNibble : Prop :=
  ∀ v : Operand, segCode (sint32 v) = segTable[(v.extractLsb' 0 4).toNat]'(by omega) ∧
    (segCode (sint32 v)).getLsbD 7 = false

/-- The decimal digits are those of the low four decimal places, each below 10, and the hexadecimal digits the nibbles of
bits 15:0 (42_display_ops R113, R116 (a), R117, R120 (a)). -/
def Obligations.DigitsAreTheLowFourPlaces : Prop :=
  ∀ m : Nat,
    m % 10000 = 1000 * dec0 m + 100 * dec1 m + 10 * dec2 m + dec3 m ∧
    dec0 m < 10 ∧ dec1 m < 10 ∧ dec2 m < 10 ∧ dec3 m < 10 ∧
    m % 0x10000 = 0x1000 * hex0 m + 0x100 * hex1 m + 0x10 * hex2 m + hex3 m ∧
    hex0 m < 16 ∧ hex1 m < 16 ∧ hex2 m < 16 ∧ hex3 m < 16

/-- The control byte: bit 7 is always 1; with BRIGHT at most 7 its bits 6:4 are 0, bit 3 is DISP_ON and bits 2:0 are
BRIGHT; otherwise BRIGHT's bits are ORed over it, unmasked (10_state R27, 41_framed_commands R98). -/
def Obligations.ControlByteFields : Prop :=
  ∀ a : Arch,
    (ctrlByte a).getLsbD 7 = true ∧
    (a.bright.toNat ≤ 7 → (ctrlByte a).toNat = 0x80 + (if a.dispOn then 8 else 0) + a.bright.toNat) ∧
    (∀ k < 7, (ctrlByte a).getLsbD k = (a.bright.getLsbD k || (decide (k = 3) && a.dispOn)))

/-! ### The transport layer -/

/-- The primitives' exact events, the levels they leave, and that they touch nothing else (40_bus_primitives R85, R86,
R88, R90). -/
def Obligations.PrimitivesEmitExactlyTheirEvents : Prop :=
  (∀ (c : Copy) (v : Bool),
    (lineWrite .clk v c).trace = c.trace ++ [⟨.clk, v⟩] ∧ (lineWrite .clk v c).arch = { c.arch with lineClk := v } ∧
    (lineWrite .dio v c).trace = c.trace ++ [⟨.dio, v⟩] ∧ (lineWrite .dio v c).arch = { c.arch with lineDio := v }) ∧
  (∀ c : Copy,
    (start c).trace = c.trace ++ [⟨.dio, false⟩, ⟨.clk, false⟩] ∧
    (start c).arch = { c.arch with lineClk := false, lineDio := false } ∧
    (stop c).trace = c.trace ++ [⟨.dio, false⟩, ⟨.clk, true⟩, ⟨.dio, true⟩] ∧
    (stop c).arch = { c.arch with lineClk := true, lineDio := true }) ∧
  (∀ (b : Byte) (c : Copy),
    (writeByte b c).trace = c.trace ++
      [⟨.clk, false⟩, ⟨.dio, b.getLsbD 0⟩, ⟨.clk, true⟩, ⟨.clk, false⟩, ⟨.dio, b.getLsbD 1⟩, ⟨.clk, true⟩,
       ⟨.clk, false⟩, ⟨.dio, b.getLsbD 2⟩, ⟨.clk, true⟩, ⟨.clk, false⟩, ⟨.dio, b.getLsbD 3⟩, ⟨.clk, true⟩,
       ⟨.clk, false⟩, ⟨.dio, b.getLsbD 4⟩, ⟨.clk, true⟩, ⟨.clk, false⟩, ⟨.dio, b.getLsbD 5⟩, ⟨.clk, true⟩,
       ⟨.clk, false⟩, ⟨.dio, b.getLsbD 6⟩, ⟨.clk, true⟩, ⟨.clk, false⟩, ⟨.dio, b.getLsbD 7⟩, ⟨.clk, true⟩,
       ⟨.clk, true⟩, ⟨.clk, false⟩] ∧
    (writeByte b c).arch = { c.arch with lineClk := false, lineDio := b.getLsbD 7 })

/-- From CLK = 0, the events WriteByte adds have exactly 8 rising edges of CLK, the i-th with DIO at bit i, and exactly 8
falling edges: the trailing strobe adds no rising edge (40_bus_primitives R91, C3). -/
def Obligations.WriteByteClocksEachBitOnce : Prop :=
  ∀ (b : Byte) (c : Copy), c.arch.lineClk = false →
    ∃ es, (writeByte b c).trace = c.trace ++ es ∧
      risingEdges c.arch.lineClk c.arch.lineDio es =
        [b.getLsbD 0, b.getLsbD 1, b.getLsbD 2, b.getLsbD 3, b.getLsbD 4, b.getLsbD 5, b.getLsbD 6, b.getLsbD 7] ∧
      fallingEdges c.arch.lineClk es = 8

/-- The trace lengths of 41_framed_commands R101. -/
def Obligations.FramedCommandTraceLengths : Prop :=
  ∀ (c : Copy) (b₀ b₁ d : Byte) (p : Int),
    (start c).trace.length = c.trace.length + 2 ∧
    (stop c).trace.length = c.trace.length + 3 ∧
    (writeByte d c).trace.length = c.trace.length + 26 ∧
    (sendDataCommand c).trace.length = c.trace.length + 31 ∧
    (sendDisplayControl c).trace.length = c.trace.length + 31 ∧
    (frame [b₀, b₁] c).trace.length = c.trace.length + 57 ∧
    (writeAddressedByte p d c).trace.length = c.trace.length + 119

/-- The reference bus monitor, on an idle bus, reads back exactly the frames that were sent, whatever their bytes and
their number (40_bus_primitives R93). -/
def Obligations.MonitorReadsEveryFrameBack : Prop :=
  ∀ frames : List (List Byte), monitorFrames (framesTrace frames) = frames

/-- DATA_CMD sends frame F_DATA = [0x40] and changes no register but the lines, which end high (41_framed_commands R96). That
it runs alone is the model's choice (log entry 2). -/
def Obligations.DataCmdSendsItsFrame : Prop :=
  ∀ s : State,
    exec .dataCmd s = .next (launched s (framesTrace [[0x40]]) { s.arch with lineClk := true, lineDio := true })

/-- DISP_CTRL sends a one-byte frame with its own byte and changes no register but the lines, which end high; when the byte
is CtrlByte() this is SendDisplayControl (41_framed_commands R97). That it runs alone is the model's choice
(log entry 2). -/
def Obligations.DispCtrlSendsItsFrame : Prop :=
  (∀ (low : BitVec 7) (s : State),
    exec (.dispCtrl low) s =
      .next (launched s (framesTrace [[(1#1 ++ low : BitVec 8)]]) { s.arch with lineClk := true, lineDio := true })) ∧
  (∀ s : State, (1#1 ++ (ctrlByte s.arch).extractLsb' 0 7 : BitVec 8) = ctrlByte s.arch) ∧
  (∀ c : Copy, (sendDisplayControl c).trace = c.trace ++ framesTrace [[ctrlByte c.arch]])

/-- ADDR_CMD opens frame F_ADDR with the byte `0xC0 | (address mod POSCNT)` and SEG_DATA closes it with its own byte; they
change no register but the lines (41_framed_commands R99, 30_encoding R79). That a wire byte can run alone is the model's
own (log entry 2). -/
def Obligations.AddrCmdAndSegDataSendTheirBytes : Prop :=
  (∀ (address : BitVec 4) (s : State), posCntLegal s.arch.posCnt = true →
    exec (.addrCmd address) s =
      .next (launched s
        ([⟨.dio, false⟩, ⟨.clk, false⟩] ++
          byteTrace (0xC0 ||| BitVec.ofNat 8 (address.toNat % s.arch.posCnt.toNat)))
        { s.arch with lineClk := false, lineDio := true })) ∧
  (∀ (code : Byte) (s : State),
    exec (.segData code) s =
      .next (launched s (byteTrace code ++ [⟨.dio, false⟩, ⟨.clk, true⟩, ⟨.dio, true⟩])
        { s.arch with lineClk := true, lineDio := true }))

/-- An addressed write is its four wire bytes in order: the traces of DATA_CMD, ADDR_CMD, SEG_DATA and DISP_CTRL, put one
after the other, are the trace of `WriteAddressedByte(p, d)`, whose three frames are 41_framed_commands R99. That a wire
byte runs alone, and that F_ADDR is split into Start with ADDR_CMD and SEG_DATA with Stop, is the model's choice
(log entry 2). -/
def Obligations.AddressedWriteIsItsFourWireBytes : Prop :=
  ∀ (s : State) (p : Int) (d : Byte), posCntLegal s.arch.posCnt = true →
    ∃ e₁ r₁ a₁ e₂ r₂ a₂ e₃ r₃ a₃ e₄ r₄ a₄,
      exec .dataCmd s = .next { s with ready := false, seq := .busy e₁ r₁ a₁ } ∧
      exec (.addrCmd (BitVec.ofNat 4 (wrap s.arch.posCnt p))) s =
        .next { s with ready := false, seq := .busy e₂ r₂ a₂ } ∧
      exec (.segData d) s = .next { s with ready := false, seq := .busy e₃ r₃ a₃ } ∧
      exec (.dispCtrl ((ctrlByte s.arch).extractLsb' 0 7)) s =
        .next { s with ready := false, seq := .busy e₄ r₄ a₄ } ∧
      (writeAddressedByte p d (copyOf s)).trace = (e₁ :: r₁) ++ (e₂ :: r₂) ++ (e₃ :: r₃) ++ (e₄ :: r₄)

/-! ### The host commands: result, trace and completion -/

/-- INIT (42_display_ops R107): on every state, POSCNT <- PosCount(A), all of SEGBUF <- 0x00, BRIGHT <-
CFG_INIT_INTENSITY[7:0], DISP_ON <- 1, then an addressed write of 0x00 to each of the POSCNT positions, ascending. -/
def Obligations.InitResult : Prop :=
  ∀ (count : Operand) (s : State),
    let regs : Arch :=
      { s.arch with
        lineClk := true, lineDio := true, posCnt := posCount count.toInt, segBuf := [],
        bright := s.ports.cfgInitIntensity.extractLsb' 0 8, dispOn := true }
    decodeHost (commandWord 0x01 count 0) = .ok (.init count) ∧
    exec (.init count) s =
      .next (launched s
        (framesTrace ((List.range regs.posCnt.toNat).flatMap fun (p : Nat) => awFrames (0x88 ||| regs.bright) p 0x00)) regs)

/-- INTENSITY (42_display_ops R109): v < 1 is Off, BRIGHT unchanged; otherwise DISP_ON <- 1, BRIGHT <- min(v, 8) - 1; then
the data frame and the control frame. -/
def Obligations.IntensityResult : Prop :=
  ∀ (level : Operand) (s : State),
    let regs : Arch :=
      if level.toInt < 1 then { s.arch with lineClk := true, lineDio := true, dispOn := false }
      else
        { s.arch with
          lineClk := true, lineDio := true, dispOn := true, bright := BitVec.ofInt 8 (min level.toInt 8 - 1) }
    decodeHost (commandWord 0x02 level 0) = .ok (.intensity level) ∧
    exec (.intensity level) s = .next (launched s (framesTrace [[0x40], [ctrlByte regs]]) regs)

/-- SHOWDIG (42_display_ops R111): SEGBUF[Wrap(B)] <- SEG_TABLE[A mod 16] and one addressed write of that byte. -/
def Obligations.ShowdigResult : Prop :=
  ∀ (value position : Operand) (s : State), posCntLegal s.arch.posCnt = true →
    let p := (position.toInt % (s.arch.posCnt.toNat : Int)).toNat
    let d := segCode value.toInt
    decodeHost (commandWord 0x03 value position) = .ok (.showdig value position) ∧
    exec (.showdig value position) s =
      .next (launched s (framesTrace (awFrames (ctrlByte s.arch) p d))
        { s.arch with lineClk := true, lineDio := true, segBuf := memWrite p d s.arch.segBuf })

/-- SHOWNUM (42_display_ops R113, R114): the minus sign 0x40 or the thousands digit at Wrap(0), then units, tens and
hundreds at Wrap(3), Wrap(2), Wrap(1), in that order, each stored and sent; the digits are those of the exact magnitude. -/
def Obligations.ShownumResult : Prop :=
  ∀ (n : Operand) (s : State), posCntLegal s.arch.posCnt = true →
    let c := ctrlByte s.arch
    let w := fun (p : Nat) => p % s.arch.posCnt.toNat
    let m := n.toInt.natAbs
    let d₀ : Byte := if n.toInt < 0 then 0x40 else segCode (m / 1000 % 10 : Nat)
    let d₁ := segCode (m / 100 % 10 : Nat)
    let d₂ := segCode (m / 10 % 10 : Nat)
    let d₃ := segCode (m % 10 : Nat)
    decodeHost (commandWord 0x04 n 0) = .ok (.shownum n) ∧
    exec (.shownum n) s =
      .next (launched s
        (framesTrace (awFrames c (w 0) d₀ ++ awFrames c (w 3) d₃ ++ awFrames c (w 2) d₂ ++ awFrames c (w 1) d₁))
        { s.arch with
          lineClk := true, lineDio := true,
          segBuf := memWrite (w 1) d₁ (memWrite (w 2) d₂ (memWrite (w 3) d₃ (memWrite (w 0) d₀ s.arch.segBuf))) })

/-- SHOWHEX (42_display_ops R117, R119): as SHOWNUM, with the nibbles of the magnitude. -/
def Obligations.ShowhexResult : Prop :=
  ∀ (n : Operand) (s : State), posCntLegal s.arch.posCnt = true →
    let c := ctrlByte s.arch
    let w := fun (p : Nat) => p % s.arch.posCnt.toNat
    let m := n.toInt.natAbs
    let d₀ : Byte := if n.toInt < 0 then 0x40 else segCode (m / 4096 % 16 : Nat)
    let d₁ := segCode (m / 256 % 16 : Nat)
    let d₂ := segCode (m / 16 % 16 : Nat)
    let d₃ := segCode (m % 16 : Nat)
    decodeHost (commandWord 0x05 n 0) = .ok (.showhex n) ∧
    exec (.showhex n) s =
      .next (launched s
        (framesTrace (awFrames c (w 0) d₀ ++ awFrames c (w 3) d₃ ++ awFrames c (w 2) d₂ ++ awFrames c (w 1) d₁))
        { s.arch with
          lineClk := true, lineDio := true,
          segBuf := memWrite (w 1) d₁ (memWrite (w 2) d₂ (memWrite (w 3) d₃ (memWrite (w 0) d₀ s.arch.segBuf))) })

/-- SHOWDP (42_display_ops R123): the byte at p = Wrap(position) with bit 7 set or cleared, stored at p and sent. -/
def Obligations.ShowdpResult : Prop :=
  ∀ (position : Operand) (visible : Bool) (s : State), posCntLegal s.arch.posCnt = true →
    let p := (position.toInt % (s.arch.posCnt.toNat : Int)).toNat
    let d : Byte := if visible then memRead s.arch.segBuf p ||| 0x80 else memRead s.arch.segBuf p &&& 0x7F
    decodeHost (commandWord 0x06 position (if visible then 1 else 0)) = .ok (.showdp position visible) ∧
    exec (.showdp position visible) s =
      .next (launched s (framesTrace (awFrames (ctrlByte s.arch) p d))
        { s.arch with lineClk := true, lineDio := true, segBuf := memWrite p d s.arch.segBuf })

/-- CLEAR (42_display_ops R126): an addressed write of 0x00 to each of the POSCNT positions, ascending, each with the
present control byte, and 0x00 stored at each. -/
def Obligations.ClearResult : Prop :=
  ∀ s : State, posCntLegal s.arch.posCnt = true →
    let positions := List.range s.arch.posCnt.toNat
    decodeHost (commandWord 0x07 0 0) = .ok .clear ∧
    exec .clear s =
      .next (launched s (framesTrace (positions.flatMap fun (p : Nat) => awFrames (ctrlByte s.arch) p 0x00))
        { s.arch with
          lineClk := true, lineDio := true,
          segBuf := positions.foldl (fun m p => memWrite p 0x00 m) s.arch.segBuf })

/-- ON (42_display_ops R129): DISP_ON <- 1, BRIGHT unchanged, data frame, control frame. -/
def Obligations.OnResult : Prop :=
  ∀ s : State,
    decodeHost (commandWord 0x08 0 0) = .ok .on ∧
    exec .on s =
      .next (launched s (framesTrace [[0x40], [0x88 ||| s.arch.bright]])
        { s.arch with lineClk := true, lineDio := true, dispOn := true })

/-- OFF (42_display_ops R130): DISP_ON <- 0, BRIGHT unchanged, data frame, control frame. -/
def Obligations.OffResult : Prop :=
  ∀ s : State,
    decodeHost (commandWord 0x09 0 0) = .ok .off ∧
    exec .off s =
      .next (launched s (framesTrace [[0x40], [0x80 ||| s.arch.bright]])
        { s.arch with lineClk := true, lineDio := true, dispOn := false })

/-- Where an instruction stops: the instructions that wrap a position stop when POSCNT is outside 1..5. 10_state R24 says
those values never occur; the stop is the model's choice (log entry 9). -/
def Obligations.PositionCommandsStopOnIllegalPosCount : Prop :=
  ∀ (s : State) (a b : Operand) (v : Bool) (address : BitVec 4), posCntLegal s.arch.posCnt = false →
    exec (.showdig a b) s = .fault .posCountRange ∧ exec (.shownum a) s = .fault .posCountRange ∧
    exec (.showhex a) s = .fault .posCountRange ∧ exec (.showdp a v) s = .fault .posCountRange ∧
    exec .clear s = .fault .posCountRange ∧ exec (.addrCmd address) s = .fault .posCountRange

/-! ### Laws of the host commands -/

/-- INTENSITY as the source's property: v < 1 makes the on flag inactive and keeps BRIGHT, 1 ≤ v ≤ 8 stores v - 1 and v ≥ 8
stores 7, for every 32-bit v (42_display_ops R110). -/
def Obligations.IntensityForEveryLevel : Prop :=
  ∀ (level : Operand) (s : State),
    ∃ e rest post, exec (.intensity level) s = .next { s with ready := false, seq := .busy e rest post } ∧
      (level.toInt < 1 → post.dispOn = false ∧ post.bright = s.arch.bright) ∧
      (1 ≤ level.toInt ∧ level.toInt ≤ 8 → post.dispOn = true ∧ (post.bright.toNat : Int) = level.toInt - 1) ∧
      (8 ≤ level.toInt → post.dispOn = true ∧ post.bright = 7)

/-- The display power state machine (10_state R37): what each host command makes of the power state, and that Off keeps
BRIGHT. -/
def Obligations.PowerStateTransitions : Prop :=
  ∀ (i : Instr) (s : State), i.isHost = true → posCntLegal s.arch.posCnt = true →
    ∃ e rest post, exec i s = .next { s with ready := false, seq := .busy e rest post } ∧
      match i with
      | .off => power post = .off ∧ post.bright = s.arch.bright
      | .on => power post = .on s.arch.bright
      | .intensity level =>
        if level.toInt < 1 then power post = .off ∧ post.bright = s.arch.bright
        else power post = .on (BitVec.ofInt 8 (min level.toInt 8 - 1))
      | .init _ => power post = .on (s.ports.cfgInitIntensity.extractLsb' 0 8)
      | _ => power post = power s.arch ∧ post.bright = s.arch.bright

/-- OFF then ON restores DISP_ON = 1 with the BRIGHT that held before, and INTENSITY with v < 1 does exactly what OFF does
(42_display_ops R131 (a), (b)). -/
def Obligations.OffThenOnRestoresBrightness : Prop :=
  (∀ s : State,
    ∃ e rest off, exec .off s = .next { s with ready := false, seq := .busy e rest off } ∧
      ∃ e' rest' on, exec .on { s with arch := off } =
          .next { s with arch := off, ready := false, seq := .busy e' rest' on } ∧
        on.dispOn = true ∧ on.bright = s.arch.bright) ∧
  (∀ (level : Operand) (s : State), level.toInt < 1 → exec (.intensity level) s = exec .off s)

/-- The decimal-point round trip: `SHOWDP p, 1` then `SHOWDP p, 0` leaves the byte at Wrap(p) with bit 7 cleared and bits
6:0 as they were, which is the byte before when its bit 7 was 0 (42_display_ops R124). -/
def Obligations.DecimalPointRoundTrip : Prop :=
  ∀ (position : Operand) (s : State), s.arch.Legal →
    let p := wrap s.arch.posCnt position.toInt
    let b := memRead s.arch.segBuf p
    ∃ e rest shown, exec (.showdp position true) s = .next { s with ready := false, seq := .busy e rest shown } ∧
      memRead shown.segBuf p = b ||| 0x80 ∧
      ∃ e' rest' hidden, exec (.showdp position false) { s with arch := shown } =
          .next { s with arch := shown, ready := false, seq := .busy e' rest' hidden } ∧
        memRead hidden.segBuf p = b &&& 0x7F ∧ (b.getLsbD 7 = false → memRead hidden.segBuf p = b)

/-- After CLEAR every position below POSCNT reads 0x00 and every other reads as before (42_display_ops R127). -/
def Obligations.ClearLeavesEveryPositionZero : Prop :=
  ∀ s : State, s.arch.Legal →
    ∃ e rest post, exec .clear s = .next { s with ready := false, seq := .busy e rest post } ∧
      ∀ p, memRead post.segBuf p = if p < s.arch.posCnt.toNat then 0x00 else memRead s.arch.segBuf p

/-- What SHOWNUM leaves at each position for each position count: with four or five positions the four digits (the minus sign
in place of the thousands), with fewer the later write wins (42_display_ops R115, R116 (e), (f)). -/
def Obligations.ShownumAtEachPositionCount : Prop :=
  ∀ (n : Operand) (s : State), s.arch.Legal →
    let m := n.toInt.natAbs
    let d₀ : Byte := if n.toInt < 0 then 0x40 else segCode (m / 1000 % 10 : Nat)
    let d₁ := segCode (m / 100 % 10 : Nat)
    let d₂ := segCode (m / 10 % 10 : Nat)
    let d₃ := segCode (m % 10 : Nat)
    ∃ e rest post, exec (.shownum n) s = .next { s with ready := false, seq := .busy e rest post } ∧
      (4 ≤ s.arch.posCnt.toNat →
        memRead post.segBuf 0 = d₀ ∧ memRead post.segBuf 1 = d₁ ∧ memRead post.segBuf 2 = d₂ ∧
        memRead post.segBuf 3 = d₃ ∧ memRead post.segBuf 4 = memRead s.arch.segBuf 4) ∧
      (s.arch.posCnt.toNat = 3 →
        memRead post.segBuf 0 = d₃ ∧ memRead post.segBuf 1 = d₁ ∧ memRead post.segBuf 2 = d₂) ∧
      (s.arch.posCnt.toNat = 2 → memRead post.segBuf 0 = d₂ ∧ memRead post.segBuf 1 = d₁) ∧
      (s.arch.posCnt.toNat = 1 → memRead post.segBuf 0 = d₁)

/-- The same for SHOWHEX (42_display_ops R118, R120 (f)). -/
def Obligations.ShowhexAtEachPositionCount : Prop :=
  ∀ (n : Operand) (s : State), s.arch.Legal →
    let m := n.toInt.natAbs
    let d₀ : Byte := if n.toInt < 0 then 0x40 else segCode (m / 4096 % 16 : Nat)
    let d₁ := segCode (m / 256 % 16 : Nat)
    let d₂ := segCode (m / 16 % 16 : Nat)
    let d₃ := segCode (m % 16 : Nat)
    ∃ e rest post, exec (.showhex n) s = .next { s with ready := false, seq := .busy e rest post } ∧
      (4 ≤ s.arch.posCnt.toNat →
        memRead post.segBuf 0 = d₀ ∧ memRead post.segBuf 1 = d₁ ∧ memRead post.segBuf 2 = d₂ ∧
        memRead post.segBuf 3 = d₃ ∧ memRead post.segBuf 4 = memRead s.arch.segBuf 4) ∧
      (s.arch.posCnt.toNat = 3 →
        memRead post.segBuf 0 = d₃ ∧ memRead post.segBuf 1 = d₁ ∧ memRead post.segBuf 2 = d₂) ∧
      (s.arch.posCnt.toNat = 2 → memRead post.segBuf 0 = d₂ ∧ memRead post.segBuf 1 = d₁) ∧
      (s.arch.posCnt.toNat = 1 → memRead post.segBuf 0 = d₁)

/-- The parameter MIRROR_NONDIGIT_WRITES at its other value: the decimal-point write and the minus-sign write are still sent
and SEGBUF is left as it was (42_display_ops R105, R125 (d)). Not this hardware's configuration. -/
def Obligations.WithoutMirrorRawWritesLeaveSegbuf : Prop :=
  ∀ (position : Int) (d : Byte) (visible : Bool) (c : Copy), posCntLegal c.arch.posCnt = true →
    let p := wrap c.arch.posCnt position
    (writeRaw false position d c).arch = { c.arch with lineClk := true, lineDio := true } ∧
    (writeRaw false position d c).trace = c.trace ++ framesTrace (awFrames (ctrlByte c.arch) p d) ∧
    (showDecimalPoint false position visible c).arch = { c.arch with lineClk := true, lineDio := true } ∧
    (showDecimalPoint false position visible c).trace = (showDecimalPoint true position visible c).trace

/-- The mirror law (20_memory R64): after every host command, each position below POSCNT holds the data byte of the last
addressed write to it that the monitor reads on the wire, and what it held before when there was none. -/
def Obligations.MirrorLawOfEveryCommand : Prop :=
  ∀ (i : Instr) (s : State), i.isHost = true → s.arch.Legal →
    ∃ e rest post, exec i s = .next { s with ready := false, seq := .busy e rest post } ∧
      ∀ p < post.posCnt.toNat,
        memRead post.segBuf p =
          (lastWritten p (monitorFrames (e :: rest))).getD (memRead s.arch.segBuf p)

/-- A repeated command leaves the state it left when run once and sends the same trace (20_memory R57). -/
def Obligations.RepeatedCommandIsIdempotent : Prop :=
  ∀ (i : Instr) (s : State), i.isHost = true → s.arch.Legal →
    ∃ e rest post, exec i s = .next { s with ready := false, seq := .busy e rest post } ∧
      exec i { s with arch := post } = .next { s with arch := post, ready := false, seq := .busy e rest post }

/-- The trace lengths of the host commands (42_display_ops R132); an illegal word emits nothing. -/
def Obligations.HostCommandTraceLengths : Prop :=
  (∀ (i : Instr) (s : State), i.isHost = true → posCntLegal s.arch.posCnt = true →
    ∃ e rest post, exec i s = .next { s with ready := false, seq := .busy e rest post } ∧
      (e :: rest).length =
        match i with
        | .init count => 119 * (posCount count.toInt).toNat
        | .intensity _ | .on | .off => 62
        | .showdig _ _ | .showdp _ _ => 119
        | .shownum _ | .showhex _ => 476
        | .clear => 119 * s.arch.posCnt.toNat
        | _ => 0) ∧
  (∀ (w : CommandWord) (s : State) (why : DecodeError), decodeHost w = .error why →
    ∃ t, acceptWord w s = .next t ∧ t.trace = s.trace ∧ t.seq = .idle)

/-- The trace of every host command, read by the bus monitor, is the frame list of 42_display_ops R132, its last frame is
F_CTRL with the control byte of the registers the command leaves, and the command leaves both lines high
(40_bus_primitives R93, 42_display_ops R132, R134, 41_framed_commands R102). -/
def Obligations.MonitorReadsEveryCommandBack : Prop :=
  ∀ (i : Instr) (s : State), i.isHost = true → posCntLegal s.arch.posCnt = true →
    ∃ e rest post, exec i s = .next { s with ready := false, seq := .busy e rest post } ∧
      monitorFrames (e :: rest) = commandFrames i s.ports.cfgInitIntensity s.arch ∧
      (monitorFrames (e :: rest)).getLast? = some [ctrlByte post] ∧
      post.lineClk = true ∧ post.lineDio = true ∧
      (∀ v, levelAfter .clk v (e :: rest) = true ∧ levelAfter .dio v (e :: rest) = true)

/-- The frame of every instruction: acceptance itself changes only READY and SEQ (10_state R31); of the registers a host
command is to commit, those the table of 42_display_ops R133 does not list for it are unchanged, and every position of
SEGBUF that is not written reads as before. The clause of the four WIRE rows, that they write no register but the lines,
follows 41_framed_commands R103; that they run alone is the model's choice (log entry 2). -/
def Obligations.RegistersEachInstructionMayWrite : Prop :=
  ∀ (i : Instr) (s t : State), exec i s = .next t →
    ∃ e rest post, t = { s with ready := false, seq := .busy e rest post } ∧ post.ill = s.arch.ill ∧
      match i with
      | .init _ => post.dispOn = true
      | .intensity level =>
        post.posCnt = s.arch.posCnt ∧ post.segBuf = s.arch.segBuf ∧
          (level.toInt < 1 → post.bright = s.arch.bright)
      | .on | .off => post.posCnt = s.arch.posCnt ∧ post.segBuf = s.arch.segBuf ∧ post.bright = s.arch.bright
      | .showdig _ position | .showdp position _ =>
        post.posCnt = s.arch.posCnt ∧ post.dispOn = s.arch.dispOn ∧ post.bright = s.arch.bright ∧
          ∀ p, p ≠ wrap s.arch.posCnt position.toInt → memRead post.segBuf p = memRead s.arch.segBuf p
      | .shownum _ | .showhex _ =>
        post.posCnt = s.arch.posCnt ∧ post.dispOn = s.arch.dispOn ∧ post.bright = s.arch.bright ∧
          ∀ p, p ≠ wrap s.arch.posCnt 0 → p ≠ wrap s.arch.posCnt 1 → p ≠ wrap s.arch.posCnt 2 →
            p ≠ wrap s.arch.posCnt 3 → memRead post.segBuf p = memRead s.arch.segBuf p
      | .clear =>
        post.posCnt = s.arch.posCnt ∧ post.dispOn = s.arch.dispOn ∧ post.bright = s.arch.bright ∧
          ∀ p, s.arch.posCnt.toNat ≤ p → memRead post.segBuf p = memRead s.arch.segBuf p
      | .dataCmd | .addrCmd _ | .dispCtrl _ | .segData _ =>
        post.posCnt = s.arch.posCnt ∧ post.segBuf = s.arch.segBuf ∧ post.dispOn = s.arch.dispOn ∧
          post.bright = s.arch.bright

/-! ### The sequencer, reset and the exception -/

/-- The registers right after reset (70_reset_and_hazards R150, 10_state R23). The input ports' values are the model's own
(log entry 5) and are not stated. -/
def Obligations.ResetStateValues : Prop :=
  State.reset.arch.lineClk = true ∧ State.reset.arch.lineDio = true ∧ State.reset.arch.posCnt = 4 ∧
  (∀ p < 5, memRead State.reset.arch.segBuf p = 0x00) ∧ State.reset.arch.dispOn = false ∧
  State.reset.arch.bright = 0x00 ∧ State.reset.arch.ill = false ∧ State.reset.ready = false ∧
  State.reset.seq = .construct

/-- RESET sampled high wins over everything: from every state the registers take their reset values, construction is
pending, and no line write is emitted (70_reset_and_hazards R150, 60_exceptions R139 (1)). -/
def Obligations.ResetStepWins : Prop :=
  ∀ s : State, s.ports.reset = true →
    ∃ t, step s = .next t ∧ t.arch.lineClk = true ∧ t.arch.lineDio = true ∧ t.arch.posCnt = 4 ∧
      (∀ p, memRead t.arch.segBuf p = 0x00) ∧ t.arch.dispOn = false ∧ t.arch.bright = 0x00 ∧ t.arch.ill = false ∧
      t.ready = false ∧ t.seq = .construct ∧ t.trace = s.trace

/-- A step runs the decoded instruction: IDLE with READY = 1 and RESET low, the step on an offered word that decodes to `i`
is `exec i`, the step from the model's own SEQ value (log entry 2) likewise, and the step in CONSTRUCT is `exec` of INIT with
CFG_POSITION_COUNT; around it the step only takes the next input values (10_state R31, 70_reset_and_hazards R151). -/
def Obligations.StepRunsTheDecodedInstruction : Prop :=
  (∀ (s : State) (i : Instr), s.ports.reset = false → s.seq = .idle → s.ready = true →
    s.ports.cmdValid = true → decodeHost s.ports.cmdWord = .ok i → step s = mapNext advancePorts (exec i s)) ∧
  (∀ (s : State) (i : Instr) (b : WireByte), s.ports.reset = false → s.seq = .transport b →
    decodeWire b = .ok i → step s = mapNext advancePorts (exec i s)) ∧
  (∀ s : State, s.ports.reset = false → s.seq = .construct →
    step s = mapNext advancePorts (exec (.init s.ports.cfgPositionCount) s))

/-- IllegalCommand (60_exceptions R136): the step that accepts an illegal word sets ILL, leaves every other register, emits
nothing and keeps READY = 1. -/
def Obligations.IllegalCommandStep : Prop :=
  ∀ (s : State) (why : DecodeError), s.ports.reset = false → s.seq = .idle → s.ready = true →
    s.ports.cmdValid = true → decodeHost s.ports.cmdWord = .error why →
    ∃ t, step s = .next t ∧ t.arch = { s.arch with ill := true } ∧ t.ready = true ∧ t.seq = .idle ∧ t.trace = s.trace

/-- IDLE with no command offered: nothing changes but the input values (10_state R31). -/
def Obligations.IdleStepHolds : Prop :=
  ∀ s : State, s.ports.reset = false → s.seq = .idle → s.ports.cmdValid = false →
    ∃ t, step s = .next t ∧ t.arch = s.arch ∧ t.ready = s.ready ∧ t.seq = .idle ∧ t.trace = s.trace

/-- A BUSY step emits the first remaining event and moves that line; on the last event the pending registers are committed,
the lines kept, READY <- 1 and SEQ <- IDLE (10_state R31, R22). -/
def Obligations.BusyStepEmitsOneEvent : Prop :=
  ∀ (s : State) (e : Event) (rest : List Event) (post : Arch), s.ports.reset = false → s.seq = .busy e rest post →
    ∃ t, step s = .next t ∧ t.trace = s.trace ++ [e] ∧
      t.arch.lineClk = (if e.line = .clk then e.level else s.arch.lineClk) ∧
      t.arch.lineDio = (if e.line = .dio then e.level else s.arch.lineDio) ∧
      (rest = [] → t.ready = true ∧ t.seq = .idle ∧
        t.arch = { post with lineClk := t.arch.lineClk, lineDio := t.arch.lineDio }) ∧
      (∀ e' rest', rest = e' :: rest' → t.ready = s.ready ∧ t.seq = .busy e' rest' post ∧
        t.arch = { s.arch with lineClk := t.arch.lineClk, lineDio := t.arch.lineDio })

/-- One bus step makes at most one line write; with RESET low the lines move only by that write (10_state R40, R22). -/
def Obligations.AtMostOneLineWritePerStep : Prop :=
  ∀ s t : State, step s = .next t →
    (t.trace = s.trace ∧
      (s.ports.reset = false → t.arch.lineClk = s.arch.lineClk ∧ t.arch.lineDio = s.arch.lineDio)) ∨
    (∃ e : Event, t.trace = s.trace ++ [e] ∧
      t.arch.lineClk = (if e.line = .clk then e.level else s.arch.lineClk) ∧
      t.arch.lineDio = (if e.line = .dio then e.level else s.arch.lineDio))

/-- The host has no move that writes the lines (60_exceptions R149): in an idle block, whatever the input ports hold, a
step with RESET low leaves both lines and the bus history as they are, and with no command offered READY stays 1; and no
step, from any state and with any inputs, leads to the model's own SEQ value that sends a byte alone (log entry 2). -/
def Obligations.NoHostMoveWritesTheLines : Prop :=
  (∀ (s : State) (ports : Ports) (future : List Ports), Inv s → s.seq = .idle → ports.reset = false →
    ∃ t, step { s with ports := ports, future := future } = .next t ∧ t.arch.lineClk = s.arch.lineClk ∧
      t.arch.lineDio = s.arch.lineDio ∧ t.trace = s.trace ∧
      (ports.cmdValid = false → t.ready = true ∧ t.seq = .idle ∧ t.arch = s.arch)) ∧
  (∀ (s t : State) (b : WireByte), step s = .next t → t.seq ≠ .transport b)

/-- While a trace runs, what the host offers and the configuration inputs make no difference: the step does the same for
every value of the other input ports, so no offer is taken (10_state R36, 70_reset_and_hazards R156 to R158). The last
clause, that with no inputs to come the ports hold their values, is the model's choice (log entry 4). -/
def Obligations.BusyStepIgnoresTheHost : Prop :=
  ∀ (s : State) (e : Event) (rest : List Event) (post : Arch) (q : Ports), s.seq = .busy e rest post →
    s.ports.reset = false → q.reset = false →
    ∃ t u, step s = .next t ∧ step { s with ports := q } = .next u ∧
      u.arch = t.arch ∧ u.ready = t.ready ∧ u.seq = t.seq ∧ u.trace = t.trace ∧
      (s.future = [] → u.ports = q ∧ t.ports = s.ports)

/-- Only INIT reads the configuration inputs: for every other instruction the outcome is the same whatever they are
(70_reset_and_hazards R158). -/
def Obligations.OnlyInitReadsTheConfiguration : Prop :=
  ∀ (i : Instr) (s : State) (cfg count : Operand), (∀ a, i ≠ .init a) →
    let s' : State := { s with ports := { s.ports with cfgInitIntensity := cfg, cfgPositionCount := count } }
    exec i s' =
      mapNext (fun t => { t with ports := { t.ports with cfgInitIntensity := cfg, cfgPositionCount := count } })
        (exec i s)

/-- Draining a trace (10_state R31, 20_memory R55, R60): with RESET low, after j steps exactly the first j events have been
emitted, in order, READY is still 0 and no register but the lines has moved; the step of the last event commits `post`. -/
def Obligations.TraceDrainsInOrderThenCommits : Prop :=
  ∀ (s : State) (e : Event) (rest : List Event) (post : Arch), s.seq = .busy e rest post → s.ready = false →
    QuietFor (rest.length + 1) s →
    (∀ j ≤ rest.length, ∃ u : State, Host.Core.run Sys2Proof.core j s = .next u ∧ u.ready = false ∧
      u.trace = s.trace ++ (e :: rest).take j ∧ u.arch = s.arch.afterTrace ((e :: rest).take j)) ∧
    ∃ u : State, Host.Core.run Sys2Proof.core (rest.length + 1) s = .next u ∧ u.ready = true ∧ u.seq = .idle ∧
      u.trace = s.trace ++ e :: rest ∧
      u.arch = { post with lineClk := levelAfter .clk s.arch.lineClk (e :: rest),
                           lineDio := levelAfter .dio s.arch.lineDio (e :: rest) }

/-- A legal command with k events occupies k + 1 bus steps (70_reset_and_hazards R162): offered to an idle block with RESET
low throughout, after the acceptance step and one step per event READY is 1, SEQ is IDLE, the wire has carried exactly
the frames of 42_display_ops R132, and the registers are those the command left. That READY is 0 in the steps between is
`Obligations.TraceDrainsInOrderThenCommits`. -/
def Obligations.LegalCommandRunsToCompletion : Prop :=
  ∀ (s : State) (i : Instr), i.isHost = true → posCntLegal s.arch.posCnt = true → s.seq = .idle → s.ready = true →
    s.ports.cmdValid = true → decodeHost s.ports.cmdWord = .ok i →
    let trace := framesTrace (commandFrames i s.ports.cfgInitIntensity s.arch)
    QuietFor (trace.length + 1) s →
    ∃ post : Arch, exec i s = .next (launched s trace post) ∧
      ∃ u : State, Host.Core.run Sys2Proof.core (trace.length + 1) s = .next u ∧
        u.arch = post ∧ u.ready = true ∧ u.seq = .idle ∧ u.trace = s.trace ++ trace

/-- The construction run (70_reset_and_hazards R151, R152, R162): from reset, with any configuration inputs and RESET low,
119·POSCNT + 1 steps later READY is 1 for the first time, the registers are as R152 lists them, and the wire has carried
an addressed write of 0x00 to each position, ascending. -/
def Obligations.ConstructionRun : Prop :=
  ∀ (ports : Ports) (future : List Ports),
    let s₀ : State := { State.reset with ports := ports, future := future }
    let n := posCount ports.cfgPositionCount.toInt
    let bright : Byte := ports.cfgInitIntensity.extractLsb' 0 8
    QuietFor (119 * n.toNat + 1) s₀ →
    (∀ j ≤ 119 * n.toNat, ∃ u : State, Host.Core.run Sys2Proof.core j s₀ = .next u ∧ u.ready = false) ∧
    ∃ u : State, Host.Core.run Sys2Proof.core (119 * n.toNat + 1) s₀ = .next u ∧ u.ready = true ∧ u.seq = .idle ∧
      u.arch = { lineClk := true, lineDio := true, posCnt := n, segBuf := [], dispOn := true, bright := bright,
                 ill := false } ∧
      u.trace = framesTrace ((List.range n.toNat).flatMap fun (p : Nat) => awFrames (0x88 ||| bright) p 0x00)

/-! ### Invariants -/

/-- The invariant holds at reset. -/
def Obligations.InvariantAtReset : Prop := Inv State.reset

/-- Every step keeps the invariant: POSCNT stays in 1..5 and SEGBUF canonical with its entries from POSCNT on at 0x00
(10_state R24, R28), READY is 1 exactly when SEQ = IDLE (10_state R36), a pending state agrees with the lines its trace
leaves (10_state R32), and the bus is idle, both lines high, whenever no trace runs (10_state R39 (b),
41_framed_commands R102). -/
def Obligations.EveryStepKeepsTheInvariant : Prop :=
  ∀ s t : State, Inv s → step s = .next t → Inv t

/-- No step of a state that meets the invariant faults or is refused: every command with every operand completes, and every
word that is no command is taken as IllegalCommand (60_exceptions R135, R137, 30_encoding R73). -/
def Obligations.NoReachableStepStops : Prop :=
  ∀ s : State, Inv s → ∃ t, step s = .next t

/-- ILL is sticky: with RESET low it never falls, and it rises only in the step that accepts an illegal word
(10_state R35, 60_exceptions R141). -/
def Obligations.IllIsSticky : Prop :=
  ∀ s t : State, Inv s → s.ports.reset = false → step s = .next t →
    (s.arch.ill = true → t.arch.ill = true) ∧
    (s.arch.ill = false → t.arch.ill = true →
      s.seq = .idle ∧ s.ready = true ∧ s.ports.cmdValid = true ∧ ∃ why, decodeHost s.ports.cmdWord = .error why)
end

