-- ==== Sys2Proof/Laws/State.lean ====
section
/-! SUPPORT. What each register update leaves in each field, so that no proof unfolds a record update. -/

namespace Sys2Proof.Machine

/-! ### Updates of the architectural registers -/

@[simp] theorem Arch.setDispOn_lineClk (v : Bool) (a : Arch) : (a.setDispOn v).lineClk = a.lineClk := rfl
@[simp] theorem Arch.setDispOn_lineDio (v : Bool) (a : Arch) : (a.setDispOn v).lineDio = a.lineDio := rfl
@[simp] theorem Arch.setDispOn_posCnt (v : Bool) (a : Arch) : (a.setDispOn v).posCnt = a.posCnt := rfl
@[simp] theorem Arch.setDispOn_segBuf (v : Bool) (a : Arch) : (a.setDispOn v).segBuf = a.segBuf := rfl
@[simp] theorem Arch.setDispOn_dispOn (v : Bool) (a : Arch) : (a.setDispOn v).dispOn = v := rfl
@[simp] theorem Arch.setDispOn_bright (v : Bool) (a : Arch) : (a.setDispOn v).bright = a.bright := rfl
@[simp] theorem Arch.setDispOn_ill (v : Bool) (a : Arch) : (a.setDispOn v).ill = a.ill := rfl

@[simp] theorem Arch.setBright_lineClk (v : Byte) (a : Arch) : (a.setBright v).lineClk = a.lineClk := rfl
@[simp] theorem Arch.setBright_lineDio (v : Byte) (a : Arch) : (a.setBright v).lineDio = a.lineDio := rfl
@[simp] theorem Arch.setBright_posCnt (v : Byte) (a : Arch) : (a.setBright v).posCnt = a.posCnt := rfl
@[simp] theorem Arch.setBright_segBuf (v : Byte) (a : Arch) : (a.setBright v).segBuf = a.segBuf := rfl
@[simp] theorem Arch.setBright_dispOn (v : Byte) (a : Arch) : (a.setBright v).dispOn = a.dispOn := rfl
@[simp] theorem Arch.setBright_bright (v : Byte) (a : Arch) : (a.setBright v).bright = v := rfl
@[simp] theorem Arch.setBright_ill (v : Byte) (a : Arch) : (a.setBright v).ill = a.ill := rfl

@[simp] theorem Arch.setIll_lineClk (a : Arch) : (a.setIll).lineClk = a.lineClk := rfl
@[simp] theorem Arch.setIll_lineDio (a : Arch) : (a.setIll).lineDio = a.lineDio := rfl
@[simp] theorem Arch.setIll_posCnt (a : Arch) : (a.setIll).posCnt = a.posCnt := rfl
@[simp] theorem Arch.setIll_segBuf (a : Arch) : (a.setIll).segBuf = a.segBuf := rfl
@[simp] theorem Arch.setIll_dispOn (a : Arch) : (a.setIll).dispOn = a.dispOn := rfl
@[simp] theorem Arch.setIll_bright (a : Arch) : (a.setIll).bright = a.bright := rfl
@[simp] theorem Arch.setIll_ill (a : Arch) : (a.setIll).ill = true := rfl

@[simp] theorem Arch.setPosCnt_lineClk (n : BitVec 3) (a : Arch) : (a.setPosCnt n).lineClk = a.lineClk := rfl
@[simp] theorem Arch.setPosCnt_lineDio (n : BitVec 3) (a : Arch) : (a.setPosCnt n).lineDio = a.lineDio := rfl
@[simp] theorem Arch.setPosCnt_posCnt (n : BitVec 3) (a : Arch) : (a.setPosCnt n).posCnt = n := rfl
@[simp] theorem Arch.setPosCnt_segBuf (n : BitVec 3) (a : Arch) : (a.setPosCnt n).segBuf = a.segBuf := rfl
@[simp] theorem Arch.setPosCnt_dispOn (n : BitVec 3) (a : Arch) : (a.setPosCnt n).dispOn = a.dispOn := rfl
@[simp] theorem Arch.setPosCnt_bright (n : BitVec 3) (a : Arch) : (a.setPosCnt n).bright = a.bright := rfl
@[simp] theorem Arch.setPosCnt_ill (n : BitVec 3) (a : Arch) : (a.setPosCnt n).ill = a.ill := rfl

@[simp] theorem Arch.zeroSegBuf_lineClk (a : Arch) : (a.zeroSegBuf).lineClk = a.lineClk := rfl
@[simp] theorem Arch.zeroSegBuf_lineDio (a : Arch) : (a.zeroSegBuf).lineDio = a.lineDio := rfl
@[simp] theorem Arch.zeroSegBuf_posCnt (a : Arch) : (a.zeroSegBuf).posCnt = a.posCnt := rfl
@[simp] theorem Arch.zeroSegBuf_segBuf (a : Arch) : (a.zeroSegBuf).segBuf = [] := rfl
@[simp] theorem Arch.zeroSegBuf_dispOn (a : Arch) : (a.zeroSegBuf).dispOn = a.dispOn := rfl
@[simp] theorem Arch.zeroSegBuf_bright (a : Arch) : (a.zeroSegBuf).bright = a.bright := rfl
@[simp] theorem Arch.zeroSegBuf_ill (a : Arch) : (a.zeroSegBuf).ill = a.ill := rfl

@[simp] theorem Arch.writeSeg_lineClk (p : Nat) (v : Byte) (a : Arch) : (a.writeSeg p v).lineClk = a.lineClk := rfl
@[simp] theorem Arch.writeSeg_lineDio (p : Nat) (v : Byte) (a : Arch) : (a.writeSeg p v).lineDio = a.lineDio := rfl
@[simp] theorem Arch.writeSeg_posCnt (p : Nat) (v : Byte) (a : Arch) : (a.writeSeg p v).posCnt = a.posCnt := rfl
@[simp] theorem Arch.writeSeg_segBuf (p : Nat) (v : Byte) (a : Arch) : (a.writeSeg p v).segBuf = memWrite p v a.segBuf := rfl
@[simp] theorem Arch.writeSeg_dispOn (p : Nat) (v : Byte) (a : Arch) : (a.writeSeg p v).dispOn = a.dispOn := rfl
@[simp] theorem Arch.writeSeg_bright (p : Nat) (v : Byte) (a : Arch) : (a.writeSeg p v).bright = a.bright := rfl
@[simp] theorem Arch.writeSeg_ill (p : Nat) (v : Byte) (a : Arch) : (a.writeSeg p v).ill = a.ill := rfl

@[simp] theorem Arch.onIdleBus_lineClk (a : Arch) : (a.onIdleBus).lineClk = true := rfl
@[simp] theorem Arch.onIdleBus_lineDio (a : Arch) : (a.onIdleBus).lineDio = true := rfl
@[simp] theorem Arch.onIdleBus_posCnt (a : Arch) : (a.onIdleBus).posCnt = a.posCnt := rfl
@[simp] theorem Arch.onIdleBus_segBuf (a : Arch) : (a.onIdleBus).segBuf = a.segBuf := rfl
@[simp] theorem Arch.onIdleBus_dispOn (a : Arch) : (a.onIdleBus).dispOn = a.dispOn := rfl
@[simp] theorem Arch.onIdleBus_bright (a : Arch) : (a.onIdleBus).bright = a.bright := rfl
@[simp] theorem Arch.onIdleBus_ill (a : Arch) : (a.onIdleBus).ill = a.ill := rfl

@[simp] theorem Arch.keepLines_lineClk (a post : Arch) : (a.keepLines post).lineClk = a.lineClk := rfl
@[simp] theorem Arch.keepLines_lineDio (a post : Arch) : (a.keepLines post).lineDio = a.lineDio := rfl
@[simp] theorem Arch.keepLines_posCnt (a post : Arch) : (a.keepLines post).posCnt = post.posCnt := rfl
@[simp] theorem Arch.keepLines_segBuf (a post : Arch) : (a.keepLines post).segBuf = post.segBuf := rfl
@[simp] theorem Arch.keepLines_dispOn (a post : Arch) : (a.keepLines post).dispOn = post.dispOn := rfl
@[simp] theorem Arch.keepLines_bright (a post : Arch) : (a.keepLines post).bright = post.bright := rfl
@[simp] theorem Arch.keepLines_ill (a post : Arch) : (a.keepLines post).ill = post.ill := rfl

@[simp] theorem Arch.afterTrace_lineClk (a : Arch) (t : List Event) : (a.afterTrace t).lineClk = levelAfter .clk a.lineClk t := rfl
@[simp] theorem Arch.afterTrace_lineDio (a : Arch) (t : List Event) : (a.afterTrace t).lineDio = levelAfter .dio a.lineDio t := rfl
@[simp] theorem Arch.afterTrace_posCnt (a : Arch) (t : List Event) : (a.afterTrace t).posCnt = a.posCnt := rfl
@[simp] theorem Arch.afterTrace_segBuf (a : Arch) (t : List Event) : (a.afterTrace t).segBuf = a.segBuf := rfl
@[simp] theorem Arch.afterTrace_dispOn (a : Arch) (t : List Event) : (a.afterTrace t).dispOn = a.dispOn := rfl
@[simp] theorem Arch.afterTrace_bright (a : Arch) (t : List Event) : (a.afterTrace t).bright = a.bright := rfl
@[simp] theorem Arch.afterTrace_ill (a : Arch) (t : List Event) : (a.afterTrace t).ill = a.ill := rfl

@[simp] theorem Arch.setLine_clk_lineClk (v : Bool) (a : Arch) : (a.setLine .clk v).lineClk = v := rfl
@[simp] theorem Arch.setLine_clk_lineDio (v : Bool) (a : Arch) : (a.setLine .clk v).lineDio = a.lineDio := rfl
@[simp] theorem Arch.setLine_clk_posCnt (v : Bool) (a : Arch) : (a.setLine .clk v).posCnt = a.posCnt := rfl
@[simp] theorem Arch.setLine_clk_segBuf (v : Bool) (a : Arch) : (a.setLine .clk v).segBuf = a.segBuf := rfl
@[simp] theorem Arch.setLine_clk_dispOn (v : Bool) (a : Arch) : (a.setLine .clk v).dispOn = a.dispOn := rfl
@[simp] theorem Arch.setLine_clk_bright (v : Bool) (a : Arch) : (a.setLine .clk v).bright = a.bright := rfl
@[simp] theorem Arch.setLine_clk_ill (v : Bool) (a : Arch) : (a.setLine .clk v).ill = a.ill := rfl
@[simp] theorem Arch.setLine_dio_lineClk (v : Bool) (a : Arch) : (a.setLine .dio v).lineClk = a.lineClk := rfl
@[simp] theorem Arch.setLine_dio_lineDio (v : Bool) (a : Arch) : (a.setLine .dio v).lineDio = v := rfl
@[simp] theorem Arch.setLine_dio_posCnt (v : Bool) (a : Arch) : (a.setLine .dio v).posCnt = a.posCnt := rfl
@[simp] theorem Arch.setLine_dio_segBuf (v : Bool) (a : Arch) : (a.setLine .dio v).segBuf = a.segBuf := rfl
@[simp] theorem Arch.setLine_dio_dispOn (v : Bool) (a : Arch) : (a.setLine .dio v).dispOn = a.dispOn := rfl
@[simp] theorem Arch.setLine_dio_bright (v : Bool) (a : Arch) : (a.setLine .dio v).bright = a.bright := rfl
@[simp] theorem Arch.setLine_dio_ill (v : Bool) (a : Arch) : (a.setLine .dio v).ill = a.ill := rfl

@[simp] theorem Arch.setLine_posCnt (line : Line) (v : Bool) (a : Arch) : (a.setLine line v).posCnt = a.posCnt := by
  cases line <;> rfl
@[simp] theorem Arch.setLine_segBuf (line : Line) (v : Bool) (a : Arch) : (a.setLine line v).segBuf = a.segBuf := by
  cases line <;> rfl
@[simp] theorem Arch.setLine_dispOn (line : Line) (v : Bool) (a : Arch) : (a.setLine line v).dispOn = a.dispOn := by
  cases line <;> rfl
@[simp] theorem Arch.setLine_bright (line : Line) (v : Bool) (a : Arch) : (a.setLine line v).bright = a.bright := by
  cases line <;> rfl
@[simp] theorem Arch.setLine_ill (line : Line) (v : Bool) (a : Arch) : (a.setLine line v).ill = a.ill := by
  cases line <;> rfl

/-! ### Updates of a copy -/

@[simp] theorem copyOf_arch (s : State) : (copyOf s).arch = s.arch := rfl
@[simp] theorem copyOf_emitted (s : State) : (copyOf s).emitted = [] := rfl
@[simp] theorem assign_arch (f : Arch → Arch) (c : Copy) : (assign f c).arch = f c.arch := rfl
@[simp] theorem assign_emitted (f : Arch → Arch) (c : Copy) : (assign f c).emitted = c.emitted := rfl
@[simp] theorem assign_trace (f : Arch → Arch) (c : Copy) : (assign f c).trace = c.trace := rfl
@[simp] theorem lineWrite_arch (l : Line) (v : Bool) (c : Copy) : (lineWrite l v c).arch = c.arch.setLine l v := rfl
@[simp] theorem lineWrite_trace (l : Line) (v : Bool) (c : Copy) : (lineWrite l v c).trace = c.trace ++ [⟨l, v⟩] := by
  simp [lineWrite, Copy.trace]

/-! ### Updates of the machine -/

@[simp] theorem resetStep_arch (s : State) : (resetStep s).arch = Arch.atReset := rfl
@[simp] theorem resetStep_ready (s : State) : (resetStep s).ready = false := rfl
@[simp] theorem resetStep_seq (s : State) : (resetStep s).seq = .construct := rfl
@[simp] theorem resetStep_ports (s : State) : (resetStep s).ports = s.ports := rfl
@[simp] theorem resetStep_future (s : State) : (resetStep s).future = s.future := rfl
@[simp] theorem resetStep_trace (s : State) : (resetStep s).trace = s.trace := rfl

@[simp] theorem raiseIllegalCommand_arch (s : State) : (raiseIllegalCommand s).arch = s.arch.setIll := rfl
@[simp] theorem raiseIllegalCommand_ready (s : State) : (raiseIllegalCommand s).ready = true := rfl
@[simp] theorem raiseIllegalCommand_seq (s : State) : (raiseIllegalCommand s).seq = .idle := rfl
@[simp] theorem raiseIllegalCommand_ports (s : State) : (raiseIllegalCommand s).ports = s.ports := rfl
@[simp] theorem raiseIllegalCommand_future (s : State) : (raiseIllegalCommand s).future = s.future := rfl
@[simp] theorem raiseIllegalCommand_trace (s : State) : (raiseIllegalCommand s).trace = s.trace := rfl

@[simp] theorem launched_cons_arch (e : Event) (rest : List Event) (post : Arch) (s : State) : (launched s (e :: rest) post).arch = s.arch := rfl
@[simp] theorem launched_cons_ready (e : Event) (rest : List Event) (post : Arch) (s : State) : (launched s (e :: rest) post).ready = false := rfl
@[simp] theorem launched_cons_seq (e : Event) (rest : List Event) (post : Arch) (s : State) : (launched s (e :: rest) post).seq = .busy e rest post := rfl
@[simp] theorem launched_cons_ports (e : Event) (rest : List Event) (post : Arch) (s : State) : (launched s (e :: rest) post).ports = s.ports := rfl
@[simp] theorem launched_cons_future (e : Event) (rest : List Event) (post : Arch) (s : State) : (launched s (e :: rest) post).future = s.future := rfl
@[simp] theorem launched_cons_trace (e : Event) (rest : List Event) (post : Arch) (s : State) : (launched s (e :: rest) post).trace = s.trace := rfl

@[simp] theorem advancePorts_arch (s : State) : (advancePorts s).arch = s.arch := by
  unfold advancePorts; split <;> rfl
@[simp] theorem advancePorts_ready (s : State) : (advancePorts s).ready = s.ready := by
  unfold advancePorts; split <;> rfl
@[simp] theorem advancePorts_seq (s : State) : (advancePorts s).seq = s.seq := by
  unfold advancePorts; split <;> rfl
@[simp] theorem advancePorts_trace (s : State) : (advancePorts s).trace = s.trace := by
  unfold advancePorts; split <;> rfl

@[simp] theorem mapNext_next (f : State → State) (s : State) : mapNext f (.next s) = .next (f s) := rfl
@[simp] theorem mapNext_fault (f : State → State) (r : Fault) : mapNext f (.fault r) = .fault r := rfl
@[simp] theorem mapNext_refused (f : State → State) (r : Refusal) : mapNext f (.refused r) = .refused r := rfl

/-- A `next` outcome of `mapNext` comes from a `next` outcome. -/
theorem mapNext_eq_next {f : State → State} {o : Host.Outcome State Fault Refusal} {t : State}
    (h : mapNext f o = .next t) : ∃ s, o = .next s ∧ t = f s := by
  cases o with
  | next s => exact ⟨s, rfl, by simpa using h.symm⟩
  | fault r => simp at h
  | refused r => simp at h

/-- Both lines high is what `onIdleBus` says. -/
theorem Arch.onIdleBus_linesHigh (a : Arch) : a.onIdleBus.LinesHigh := ⟨rfl, rfl⟩

@[simp] theorem Arch.onIdleBus_onIdleBus (a : Arch) : a.onIdleBus.onIdleBus = a.onIdleBus := rfl

/-- Setting the lines and writing SEGBUF commute. -/
@[simp] theorem Arch.onIdleBus_writeSeg (p : Nat) (v : Byte) (a : Arch) :
    (a.onIdleBus).writeSeg p v = (a.writeSeg p v).onIdleBus := rfl

end Sys2Proof.Machine
end

