-- ==== Sys2Proof/Laws/Memory.lean ====
section
/-! SUPPORT. SEGBUF as a memory: read after write, and the canonical form that every write keeps. -/

namespace Sys2Proof.Machine

@[simp] theorem memRead_nil (p : Nat) : memRead [] p = 0x00#8 := rfl

/-- What a canonical list says of its head and its tail. -/
theorem wfFrom_cons {lo a : Nat} {b : Byte} {m : Memory} :
    Memory.wfFrom lo ((a, b) :: m) = true ↔
      lo ≤ a ∧ a < Config.maxPos ∧ b ≠ 0x00#8 ∧ Memory.wfFrom (a + 1) m = true := by
  simp [Memory.wfFrom, unlistedByte, and_assoc]

/-- A canonical list from `lo` on reads as unlisted below `lo`. -/
theorem memRead_below {lo p : Nat} {m : Memory} (h : Memory.wfFrom lo m = true) (hp : p < lo) :
    memRead m p = 0x00#8 := by
  induction m generalizing lo with
  | nil => rfl
  | cons x m ih =>
    obtain ⟨a, b⟩ := x
    obtain ⟨hlo, -, -, hm⟩ := wfFrom_cons.1 h
    have hne : a ≠ p := by omega
    simpa [memRead, hne] using ih hm (by omega)

/-- A write is read back at its own position and leaves every other position as it was. -/
theorem memRead_memWrite_from {lo : Nat} {m : Memory} (h : Memory.wfFrom lo m = true) (p q : Nat) (v : Byte) :
    memRead (memWrite p v m) q = if q = p then v else memRead m q := by
  induction m generalizing lo with
  | nil =>
    rcases eq_or_ne q p with rfl | hq <;> by_cases hv : v = 0x00#8 <;>
      simp_all [memWrite, memRead, unlistedByte, Ne.symm]
  | cons x m ih =>
    obtain ⟨a, b⟩ := x
    obtain ⟨-, hmax, hb, hm⟩ := wfFrom_cons.1 h
    have hself : Memory.wfFrom a ((a, b) :: m) = true := wfFrom_cons.2 ⟨le_rfl, hmax, hb, hm⟩
    rcases lt_trichotomy p a with hlt | rfl | hgt
    · rcases eq_or_ne q p with rfl | hq
      · have hbelow := memRead_below hself hlt
        by_cases hv : v = 0x00#8 <;> simp_all [memWrite, memRead, unlistedByte]
      · by_cases hv : v = 0x00#8 <;> simp [memWrite, memRead, unlistedByte, hlt, hv, hq, hq.symm]
    · rcases eq_or_ne q p with rfl | hq
      · have hbelow := memRead_below hm (Nat.lt_succ_self q)
        by_cases hv : v = 0x00#8 <;> simp [memWrite, memRead, unlistedByte, hv, hbelow]
      · by_cases hv : v = 0x00#8 <;> simp [memWrite, memRead, unlistedByte, hv, hq, hq.symm]
    · have h1 : ¬ p < a := by omega
      have h2 : ¬ p = a := by omega
      rcases eq_or_ne q a with rfl | hq
      · have h3 : ¬ q = p := by omega
        simp [memWrite, memRead, h1, h2, h3]
      · simp [memWrite, memRead, h1, h2, hq.symm, ih hm]

/-- A write leaves every other position as it was, whatever the form of the list. -/
theorem memRead_memWrite_ne {p q : Nat} (h : q ≠ p) (v : Byte) (m : Memory) :
    memRead (memWrite p v m) q = memRead m q := by
  induction m with
  | nil => by_cases hv : v = 0x00#8 <;> simp [memWrite, memRead, unlistedByte, hv, h.symm]
  | cons x m ih =>
    obtain ⟨a, b⟩ := x
    rcases lt_trichotomy p a with hlt | rfl | hgt
    · by_cases hv : v = 0x00#8 <;> simp [memWrite, memRead, unlistedByte, hlt, hv, h.symm]
    · by_cases hv : v = 0x00#8 <;> simp [memWrite, memRead, unlistedByte, hv, h.symm]
    · have h1 : ¬ p < a := by omega
      have h2 : ¬ p = a := by omega
      simp [memWrite, memRead, h1, h2, ih]

/-- `memRead_memWrite_from` for a canonical SEGBUF. -/
theorem memRead_memWrite {m : Memory} (h : Memory.wf m = true) (p q : Nat) (v : Byte) :
    memRead (memWrite p v m) q = if q = p then v else memRead m q :=
  memRead_memWrite_from h p q v

/-- A list canonical from `lo` on is canonical from any lower bound. -/
theorem wfFrom_mono {lo lo' : Nat} {m : Memory} (h : Memory.wfFrom lo m = true) (hle : lo' ≤ lo) :
    Memory.wfFrom lo' m = true := by
  cases m with
  | nil => rfl
  | cons x m =>
    obtain ⟨a, b⟩ := x
    obtain ⟨h1, h2⟩ := wfFrom_cons.1 h
    exact wfFrom_cons.2 ⟨by omega, h2⟩

/-- A write to one of the five entries keeps the canonical form. -/
theorem memWrite_wfFrom {lo p : Nat} {m : Memory} (h : Memory.wfFrom lo m = true) (hlo : lo ≤ p)
    (hp : p < Config.maxPos) (v : Byte) : Memory.wfFrom lo (memWrite p v m) = true := by
  induction m generalizing lo with
  | nil => by_cases hv : v = 0x00#8 <;> simp [memWrite, unlistedByte, hv, Memory.wfFrom, hlo, hp]
  | cons x m ih =>
    obtain ⟨a, b⟩ := x
    obtain ⟨hloa, hmax, hb, hm⟩ := wfFrom_cons.1 h
    rcases lt_trichotomy p a with hlt | rfl | hgt
    · by_cases hv : v = 0x00#8
      · simpa [memWrite, unlistedByte, hlt, hv] using h
      · simpa [memWrite, unlistedByte, hlt, hv] using
          wfFrom_cons.2 ⟨hlo, hp, hv, wfFrom_cons.2 ⟨hlt, hmax, hb, hm⟩⟩
    · by_cases hv : v = 0x00#8
      · simpa [memWrite, unlistedByte, hv] using wfFrom_mono hm (by omega)
      · simpa [memWrite, unlistedByte, hv] using wfFrom_cons.2 ⟨hlo, hp, hv, hm⟩
    · have h1 : ¬ p < a := by omega
      have h2 : ¬ p = a := by omega
      simpa [memWrite, h1, h2] using wfFrom_cons.2 ⟨hloa, hmax, hb, ih hm hgt⟩

/-- MemWrite keeps SEGBUF's canonical form (20_memory R48). -/
theorem memWrite_wf {p : Nat} {m : Memory} (h : Memory.wf m = true) (hp : p < Config.maxPos) (v : Byte) :
    Memory.wf (memWrite p v m) = true :=
  memWrite_wfFrom h (Nat.zero_le p) hp v

/-- Two canonical lists that read the same everywhere are the same list. -/
theorem wfFrom_ext {lo : Nat} {m m' : Memory} (h : Memory.wfFrom lo m = true) (h' : Memory.wfFrom lo m' = true)
    (heq : ∀ p, memRead m p = memRead m' p) : m = m' := by
  induction m generalizing lo m' with
  | nil =>
    cases m' with
    | nil => rfl
    | cons y m' =>
      obtain ⟨a, b⟩ := y
      have := heq a
      exact absurd (by simpa [memRead, unlistedByte] using this.symm) (wfFrom_cons.1 h').2.2.1
  | cons x m ih =>
    obtain ⟨a, b⟩ := x
    obtain ⟨hlo, hmax, hb, hm⟩ := wfFrom_cons.1 h
    cases m' with
    | nil => exact absurd (by simpa [memRead, unlistedByte] using heq a) hb
    | cons y m' =>
      obtain ⟨a', b'⟩ := y
      obtain ⟨hlo', hmax', hb', hm'⟩ := wfFrom_cons.1 h'
      have ha : a = a' := by
        rcases lt_trichotomy a a' with hlt | he | hgt
        · have h1 := heq a
          rw [memRead_below (wfFrom_cons.2 ⟨le_rfl, hmax', hb', hm'⟩) hlt] at h1
          exact absurd (by simpa [memRead] using h1) hb
        · exact he
        · have h1 := heq a'
          rw [memRead_below (wfFrom_cons.2 ⟨le_rfl, hmax, hb, hm⟩) hgt] at h1
          exact absurd (by simpa [memRead] using h1.symm) hb'
      subst ha
      have hbb : b = b' := by simpa [memRead] using heq a
      subst hbb
      have : m = m' := by
        refine ih hm hm' fun p => ?_
        rcases eq_or_ne a p with rfl | hp
        · rw [memRead_below hm (Nat.lt_succ_self _), memRead_below hm' (Nat.lt_succ_self _)]
        · simpa [memRead, hp] using heq p
      rw [this]

/-- `wfFrom_ext` for SEGBUF: equal buffers are equal data. -/
theorem memory_ext {m m' : Memory} (h : Memory.wf m = true) (h' : Memory.wf m' = true)
    (heq : ∀ p, memRead m p = memRead m' p) : m = m' :=
  wfFrom_ext h h' heq

/-- SEGBUF at reset is canonical. -/
theorem reset_segBuf_wf : Memory.wf State.reset.arch.segBuf = true := rfl

end Sys2Proof.Machine
end

