-- ==== Sys2Proof/Laws/Transport.lean ====
section
/-! SUPPORT. One lemma per transport operation: it adds exactly its trace and moves only the lines. -/

namespace Sys2Proof.Machine

/-- A copy after the events `es`: the lines follow them and they are added to the trace. -/
def Copy.after (c : Copy) (es : List Event) : Copy := ⟨c.arch.afterTrace es, es.reverse ++ c.emitted⟩

@[simp] theorem Copy.after_arch (c : Copy) (es : List Event) : (c.after es).arch = c.arch.afterTrace es := rfl

@[simp] theorem Copy.after_trace (c : Copy) (es : List Event) : (c.after es).trace = c.trace ++ es := by
  simp [Copy.after, Copy.trace]

theorem levelAfter_append (l : Line) (v : Bool) (es fs : List Event) :
    levelAfter l v (es ++ fs) = levelAfter l (levelAfter l v es) fs := by
  induction es generalizing v with
  | nil => rfl
  | cons e es ih => simpa [levelAfter] using ih _

theorem Copy.after_after (c : Copy) (es fs : List Event) : (c.after es).after fs = c.after (es ++ fs) := by
  simp [Copy.after, Arch.afterTrace, levelAfter_append]

@[simp] theorem Copy.after_nil (c : Copy) : c.after [] = c := rfl

theorem lineWrite_eq (l : Line) (v : Bool) (c : Copy) : lineWrite l v c = c.after [⟨l, v⟩] := by
  cases l <;> rfl

theorem start_eq (c : Copy) : start c = c.after startTrace := by
  simp [start, lineWrite_eq, Copy.after_after, startTrace]

theorem stop_eq (c : Copy) : stop c = c.after stopTrace := by
  simp [stop, lineWrite_eq, Copy.after_after, stopTrace]

theorem writeBit_eq (v : Bool) (c : Copy) : writeBit v c = c.after (bitTrace v) := by
  simp [writeBit, lineWrite_eq, Copy.after_after, bitTrace]

/-- Operations that each add their trace add the traces one after the other. -/
theorem foldl_after {α : Type} {f : Copy → α → Copy} {t : α → List Event} (hf : ∀ c x, f c x = c.after (t x))
    (xs : List α) (c : Copy) : xs.foldl f c = c.after (xs.flatMap t) := by
  induction xs generalizing c with
  | nil => rfl
  | cons x xs ih => simp [hf, ih, Copy.after_after]

/-- `WriteByte(b)` emits exactly `byteTrace b`. -/
theorem writeByte_eq (b : Byte) (c : Copy) : writeByte b c = c.after (byteTrace b) := by
  have h := foldl_after (f := fun c i => writeBit (b.getLsbD i) c) (fun c i => writeBit_eq (b.getLsbD i) c)
    (List.range 8) c
  simp only [writeByte, h, lineWrite_eq, Copy.after_after]
  simp [byteTrace, lsbFirst, List.flatMap_map]

/-- After WriteByte, CLK is low and DIO holds bit 7 (40_bus_primitives R90). -/
theorem Arch.afterTrace_byteTrace (a : Arch) (b : Byte) :
    a.afterTrace (byteTrace b) = { a with lineClk := false, lineDio := b.getLsbD 7 } := by
  simp [Arch.afterTrace, byteTrace, lsbFirst, levelAfter, bitTrace, List.range, List.range.loop]

/-- A trace that ends with Stop leaves both lines high (40_bus_primitives R88). -/
theorem Arch.afterTrace_stopTrace (a : Arch) (es : List Event) : a.afterTrace (es ++ stopTrace) = a.onIdleBus := by
  simp [Arch.afterTrace, levelAfter_append, stopTrace, levelAfter, Arch.onIdleBus]

/-- `Frame(bytes)` emits exactly `frameTrace bytes`. -/
theorem frame_eq_after (bytes : List Byte) (c : Copy) : frame bytes c = c.after (frameTrace bytes) := by
  simp only [frame, stop_eq, foldl_after (fun c b => writeByte_eq b c), start_eq, Copy.after_after]
  simp [frameTrace]

theorem Arch.afterTrace_frameTrace (a : Arch) (bytes : List Byte) : a.afterTrace (frameTrace bytes) = a.onIdleBus :=
  a.afterTrace_stopTrace _

/-- What a frame does: its events, both lines left high, nothing else (41_framed_commands R95, R102). -/
theorem frame_eq (bytes : List Byte) (c : Copy) :
    frame bytes c = ⟨c.arch.onIdleBus, (frameTrace bytes).reverse ++ c.emitted⟩ := by
  rw [frame_eq_after, Copy.after, Arch.afterTrace_frameTrace]

@[simp] theorem ctrlByte_onIdleBus (a : Arch) : ctrlByte a.onIdleBus = ctrlByte a := rfl

/-- What an addressed write does: the events of its three frames, both lines left high, nothing else
(41_framed_commands R99, R103). -/
theorem writeAddressedByte_eq (p : Int) (d : Byte) (c : Copy) :
    writeAddressedByte p d c =
      ⟨c.arch.onIdleBus, (framesTrace (addressedFrames c.arch p d)).reverse ++ c.emitted⟩ := by
  simp [writeAddressedByte, sendDataCommand, sendDisplayControl, frame_eq, framesTrace, addressedFrames, dataFrame,
    ctrlFrame]

/-- The data frame and the control frame of ON, OFF and INTENSITY (42_display_ops R128). -/
theorem sendBoth_eq (c : Copy) :
    sendDisplayControl (sendDataCommand c) =
      ⟨c.arch.onIdleBus, (framesTrace [dataFrame, ctrlFrame c.arch]).reverse ++ c.emitted⟩ := by
  simp [sendDataCommand, sendDisplayControl, frame_eq, framesTrace, dataFrame, ctrlFrame]

/-- A frame's events begin with Start's DIO fall, so no frame is empty. -/
theorem frameTrace_cons (bytes : List Byte) :
    frameTrace bytes = ⟨.dio, false⟩ :: ⟨.clk, false⟩ :: (bytes.flatMap byteTrace ++ stopTrace) := rfl

@[simp] theorem framesTrace_nil : framesTrace [] = [] := rfl

@[simp] theorem framesTrace_append (fs gs : List (List Byte)) :
    framesTrace (fs ++ gs) = framesTrace fs ++ framesTrace gs := by
  simp [framesTrace]

theorem framesTrace_cons (f : List Byte) (fs : List (List Byte)) :
    framesTrace (f :: fs) = frameTrace f ++ framesTrace fs := by
  simp [framesTrace]

/-- One or more frames leave both lines high, from any levels (41_framed_commands R102). -/
theorem Arch.afterTrace_framesTrace (a : Arch) {fs : List (List Byte)} (h : fs ≠ []) :
    a.afterTrace (framesTrace fs) = a.onIdleBus := by
  have : fs = fs.dropLast ++ [fs.getLast h] := (List.dropLast_append_getLast h).symm
  rw [this, framesTrace_append, framesTrace_cons, framesTrace_nil, List.append_nil]
  simpa [frameTrace, List.append_assoc] using
    a.afterTrace_stopTrace (framesTrace fs.dropLast ++ (startTrace ++ (fs.getLast h).flatMap byteTrace))

/-- WriteByte emits 26 events (40_bus_primitives R90). -/
@[simp] theorem byteTrace_length (b : Byte) : (byteTrace b).length = 26 := by
  simp [byteTrace, lsbFirst, bitTrace, List.range, List.range.loop]

/-- A frame of k bytes emits 26·k + 5 events (41_framed_commands R95). -/
@[simp] theorem frameTrace_length (bytes : List Byte) : (frameTrace bytes).length = 26 * bytes.length + 5 := by
  induction bytes with
  | nil => rfl
  | cons b bs ih =>
    simp only [frameTrace, List.length_append, List.flatMap_cons, byteTrace_length, List.length_cons] at ih ⊢
    omega

end Sys2Proof.Machine
end

