-- ==== Sys2Proof/Laws/Display.lean ====
section
/-! SUPPORT. Operands, and one lemma per display operation: the registers it leaves and the frames it sends. -/

namespace Sys2Proof.Machine

/-! ### Operands -/

/-- POSCNT is legal when it is one of 1..5. -/
theorem posCntLegal_iff (n : BitVec 3) : posCntLegal n = true ↔ 1 ≤ n.toNat ∧ n.toNat ≤ 5 := by
  unfold posCntLegal
  rw [decide_eq_true_eq]
  rfl

/-- Every position wraps into the buffer (20_memory R46). -/
theorem wrap_lt {n : BitVec 3} (h : posCntLegal n = true) (p : Int) : wrap n p < n.toNat := by
  have hn := ((posCntLegal_iff n).1 h).1
  have h1 : (p % (n.toNat : Int)) < (n.toNat : Int) := Int.emod_lt_of_pos _ (by omega)
  have h2 : 0 ≤ p % (n.toNat : Int) := Int.emod_nonneg _ (by omega)
  unfold wrap
  omega

/-- A wrapped position is an entry of SEGBUF. -/
theorem wrap_lt_maxPos {n : BitVec 3} (h : posCntLegal n = true) (p : Int) : wrap n p < Config.maxPos := by
  have := wrap_lt h p
  have := ((posCntLegal_iff n).1 h).2
  simp only [Config.maxPos]
  omega

/-- A position in range wraps to itself. -/
theorem wrap_of_lt {n : BitVec 3} {p : Nat} (h : p < n.toNat) : wrap n (p : Int) = p := by
  unfold wrap
  rw [Int.emod_eq_of_lt (by omega) (by omega)]
  simp

/-- Wrapping twice is wrapping once. -/
theorem wrap_wrap {n : BitVec 3} (h : posCntLegal n = true) (p : Int) : wrap n (wrap n p : Nat) = wrap n p :=
  wrap_of_lt (wrap_lt h p)

/-- The address byte depends on the wrapped position only. -/
theorem addrByte_wrap {n : BitVec 3} (h : posCntLegal n = true) (p : Int) :
    addrByte n (wrap n p : Nat) = addrByte n p := by
  simp [addrByte, wrap_wrap h]

/-- `PosCount` always gives a legal count (42_display_ops R106, 10_state R24). -/
theorem posCount_legal (a : Int) : posCntLegal (posCount a) = true := by
  unfold posCount
  split
  · rename_i h
    simp only [Config.minPos, Config.maxPos] at h
    obtain ⟨h1, h2⟩ := h
    have : a = 1 ∨ a = 2 ∨ a = 3 ∨ a = 4 ∨ a = 5 := by omega
    rcases this with rfl | rfl | rfl | rfl | rfl <;> decide
  · decide

/-! ### Operations -/

/-- The frames of addressed writes depend on POSCNT, DISP_ON and BRIGHT only. -/
theorem addressedFrames_congr {a b : Arch} (hp : a.posCnt = b.posCnt) (hd : a.dispOn = b.dispOn)
    (hb : a.bright = b.bright) (p : Int) (d : Byte) : addressedFrames a p d = addressedFrames b p d := by
  unfold addressedFrames ctrlFrame ctrlByte
  rw [hp, hd, hb]

@[simp] theorem addressedFrames_onIdleBus (a : Arch) (p : Int) (d : Byte) :
    addressedFrames a.onIdleBus p d = addressedFrames a p d := rfl

@[simp] theorem addressedFrames_writeSeg (a : Arch) (q : Nat) (v : Byte) (p : Int) (d : Byte) :
    addressedFrames (a.writeSeg q v) p d = addressedFrames a p d := rfl

@[simp] theorem addressedFrames_segBuf (a : Arch) (m : Memory) (p : Int) (d : Byte) :
    addressedFrames { a with segBuf := m } p d = addressedFrames a p d := rfl

/-- What `SetDigitAt` does (42_display_ops R105). -/
theorem setDigitAt_eq (v p : Int) (c : Copy) :
    setDigitAt v p c =
      ⟨(c.arch.writeSeg (wrap c.arch.posCnt p) (segCode v)).onIdleBus,
        (framesTrace (addressedFrames c.arch p (segCode v))).reverse ++ c.emitted⟩ := by
  simp [setDigitAt, writeAddressedByte_eq]

/-- What `WriteRaw` does when it mirrors (42_display_ops R105). -/
theorem writeRaw_true_eq (p : Int) (d : Byte) (c : Copy) :
    writeRaw true p d c =
      ⟨(c.arch.writeSeg (wrap c.arch.posCnt p) d).onIdleBus,
        (framesTrace (addressedFrames c.arch p d)).reverse ++ c.emitted⟩ := by
  simp [writeRaw, writeAddressedByte_eq]

/-- What `WriteRaw` does when it does not mirror: the addressed write alone (42_display_ops R105). -/
theorem writeRaw_false_eq (p : Int) (d : Byte) (c : Copy) :
    writeRaw false p d c =
      ⟨c.arch.onIdleBus, (framesTrace (addressedFrames c.arch p d)).reverse ++ c.emitted⟩ := by
  simp [writeRaw, writeAddressedByte_eq]

/-- The four addressed writes of a number as one result (42_display_ops R114, R118). -/
theorem showDigits_eq (negative : Bool) (d0 d1 d2 d3 : Nat) (c : Copy) :
    showDigits true negative d0 d1 d2 d3 c =
      ⟨({ c.arch with segBuf := mirrorWrites c.arch.posCnt (digitWrites negative d0 d1 d2 d3) c.arch.segBuf }).onIdleBus,
        (framesTrace ((digitWrites negative d0 d1 d2 d3).flatMap fun w => addressedFrames c.arch w.1 w.2)).reverse
          ++ c.emitted⟩ := by
  cases negative <;>
    simp [showDigits, writeRaw_true_eq, setDigitAt_eq, digitWrites, mirrorWrites, Arch.onIdleBus, Arch.writeSeg] <;>
    rfl

/-- What `ShowDecimalPoint` does on a legal position count when it mirrors (42_display_ops R123). -/
theorem showDecimalPoint_eq {c : Copy} (h : posCntLegal c.arch.posCnt = true) (p : Int) (visible : Bool) :
    showDecimalPoint true p visible c =
      let d := withPoint visible (memRead c.arch.segBuf (wrap c.arch.posCnt p))
      ⟨(c.arch.writeSeg (wrap c.arch.posCnt p) d).onIdleBus,
        (framesTrace (addressedFrames c.arch p d)).reverse ++ c.emitted⟩ := by
  simp [showDecimalPoint, writeRaw_true_eq, wrap_wrap h, addressedFrames, addrByte_wrap h]

/-- What writing 0x00 to the positions of a list does, one after the other (42_display_ops R126). -/
theorem clearLoop_eq (ps : List Nat) (c : Copy) (ha : c.arch.LinesHigh ∨ ps ≠ []) :
    ps.foldl (fun c i => writeAddressedByte (i : Int) 0x00 c |> assign (fun a => a.writeSeg i 0x00)) c =
      ⟨({ c.arch with segBuf := ps.foldl (fun m i => memWrite i 0x00 m) c.arch.segBuf }).onIdleBus,
        (framesTrace (ps.flatMap fun (i : Nat) => addressedFrames c.arch (i : Int) 0x00)).reverse ++ c.emitted⟩ := by
  induction ps generalizing c with
  | nil =>
    obtain ⟨a, em⟩ := c
    rcases ha with ⟨h1, h2⟩ | h
    · cases a
      simp_all [Arch.onIdleBus]
    · exact absurd rfl h
  | cons p ps ih =>
    simp only [List.foldl_cons]
    rw [ih _ (Or.inl ⟨rfl, rfl⟩)]
    simp [writeAddressedByte_eq, Arch.onIdleBus, Arch.writeSeg, assign]
    rfl

/-- What `Clear` does on a legal position count (42_display_ops R126). -/
theorem clearAll_eq {c : Copy} (h : posCntLegal c.arch.posCnt = true) :
    clearAll c =
      ⟨({ c.arch with
          segBuf := (List.range c.arch.posCnt.toNat).foldl (fun m i => memWrite i 0x00 m) c.arch.segBuf }).onIdleBus,
        (framesTrace ((List.range c.arch.posCnt.toNat).flatMap fun (i : Nat) =>
          addressedFrames c.arch (i : Int) 0x00)).reverse ++ c.emitted⟩ := by
  apply clearLoop_eq
  have := ((posCntLegal_iff _).1 h).1
  right
  simp only [ne_eq, List.range_eq_nil]
  omega

/-- Writing 0x00 over an empty SEGBUF leaves it empty. -/
theorem zeroWrites_nil (ps : List Nat) : ps.foldl (fun m i => memWrite i 0#8 m) ([] : Memory) = [] := by
  induction ps with
  | nil => rfl
  | cons p ps ih => simpa [memWrite, unlistedByte] using ih

/-! ### Acceptance -/

/-- Accepting a result whose trace is not empty starts it (10_state R31). -/
theorem accept_of_trace {s : State} {c : Copy} (h : c.trace ≠ []) : accept s c = launched s c.trace c.arch := by
  unfold accept launched
  cases hc : c.trace with
  | nil => exact absurd hc h
  | cons e rest => rfl

/-- What `launch` answers, from what the operation does on its copy. -/
theorem launch_eq {op : Copy → Copy} {s : State} {a : Arch} {t : List Event}
    (h : op (copyOf s) = ⟨a, t.reverse ++ []⟩) (ht : t ≠ []) : launch op s = .next (launched s t a) := by
  have hc : (op (copyOf s)).trace = t := by simp [h, Copy.trace]
  unfold launch
  rw [accept_of_trace (by rw [hc]; exact ht), hc, h]

/-- What `launchWrapping` answers on a legal position count. -/
theorem launchWrapping_eq {op : Copy → Copy} {s : State} {a : Arch} {t : List Event}
    (hp : posCntLegal s.arch.posCnt = true) (h : op (copyOf s) = ⟨a, t.reverse ++ []⟩) (ht : t ≠ []) :
    launchWrapping op s = .next (launched s t a) := by
  simp [launchWrapping, hp, launch_eq h ht]

/-- An accepted operation answers a next state, or a fault when POSCNT is outside 1..5. -/
theorem launchWrapping_cases (op : Copy → Copy) (s : State) :
    (posCntLegal s.arch.posCnt = true ∧ launchWrapping op s = launch op s) ∨
      (posCntLegal s.arch.posCnt = false ∧ launchWrapping op s = .fault .posCountRange) := by
  unfold launchWrapping
  cases h : posCntLegal s.arch.posCnt <;> simp

/-- One or more frames have a non-empty trace. -/
theorem framesTrace_ne_nil {fs : List (List Byte)} (h : fs ≠ []) : framesTrace fs ≠ [] := by
  cases fs with
  | nil => exact absurd rfl h
  | cons f fs => simp [framesTrace_cons, frameTrace_cons]

end Sys2Proof.Machine
end

