-- ==== Sys2Proof/Laws/Step.lean ====
section
/-! SUPPORT. One bus step, case by case, and what it can do (10_state R31, 60_exceptions R139). -/

namespace Sys2Proof.Machine

theorem step_eq (s : State) : step s = mapNext advancePorts (blockStep s) := rfl

theorem step_of_reset {s : State} (h : s.ports.reset = true) : step s = .next (advancePorts (resetStep s)) := by
  simp [step_eq, blockStep, h]

theorem step_of_quiet {s : State} (h : s.ports.reset = false) : step s = mapNext advancePorts (sequencerStep s) := by
  simp [step_eq, blockStep, h]

theorem step_of_construct {s : State} (h : s.ports.reset = false) (hs : s.seq = .construct) :
    step s = mapNext advancePorts (acceptWord (constructWord s) s) := by
  simp [step_of_quiet h, sequencerStep, hs]

theorem step_of_busy {s : State} {e : Event} {rest : List Event} {post : Arch} (h : s.ports.reset = false)
    (hs : s.seq = .busy e rest post) : step s = .next (advancePorts (emitStep e rest post s)) := by
  simp [step_of_quiet h, sequencerStep, hs]

theorem step_of_transport {s : State} {b : WireByte} (h : s.ports.reset = false) (hs : s.seq = .transport b) :
    step s = mapNext advancePorts (acceptWire b s) := by
  simp [step_of_quiet h, sequencerStep, hs]

theorem step_of_idle {s : State} (h : s.ports.reset = false) (hs : s.seq = .idle) :
    step s = mapNext advancePorts (idleStep s) := by
  simp [step_of_quiet h, sequencerStep, hs]

/-- Everything a step that answers a next state can have done. -/
theorem step_cases {s t : State} (h : step s = .next t) :
    ∃ u, t = advancePorts u ∧
      ((s.ports.reset = true ∧ u = resetStep s) ∨
       (s.ports.reset = false ∧ s.seq = .construct ∧ acceptWord (constructWord s) s = .next u) ∨
       (s.ports.reset = false ∧ (∃ e rest post, s.seq = .busy e rest post ∧ u = emitStep e rest post s)) ∨
       (s.ports.reset = false ∧ s.seq = .idle ∧
         (s.ports.cmdValid && s.ready) = true ∧ acceptWord s.ports.cmdWord s = .next u) ∨
       (s.ports.reset = false ∧ s.seq = .idle ∧ (s.ports.cmdValid && s.ready) = false ∧ u = s) ∨
       (s.ports.reset = false ∧ (∃ b, s.seq = .transport b ∧ acceptWire b s = .next u))) := by
  obtain ⟨u, hu, rfl⟩ := mapNext_eq_next (step_eq s ▸ h)
  refine ⟨u, rfl, ?_⟩
  unfold blockStep at hu
  split at hu
  · rename_i hr
    cases hu
    exact .inl ⟨hr, rfl⟩
  · rename_i hr
    have hr : s.ports.reset = false := by simpa using hr
    unfold sequencerStep at hu
    split at hu
    · rename_i hs
      exact .inr (.inl ⟨hr, hs, hu⟩)
    · rename_i hs
      unfold idleStep at hu
      split at hu
      · rename_i hv
        exact .inr (.inr (.inr (.inl ⟨hr, hs, hv, hu⟩)))
      · rename_i hv
        cases hu
        exact .inr (.inr (.inr (.inr (.inl ⟨hr, hs, by simpa using hv, rfl⟩))))
    · rename_i e rest post hs
      cases hu
      exact .inr (.inr (.inl ⟨hr, e, rest, post, hs, rfl⟩))
    · rename_i b hs
      exact .inr (.inr (.inr (.inr (.inr ⟨hr, b, hs, hu⟩))))

/-- Accepting a word runs the command it encodes or raises IllegalCommand. -/
theorem acceptWord_cases (w : CommandWord) (s : State) :
    (∃ i, decodeHost w = .ok i ∧ acceptWord w s = exec i s) ∨
      (∃ why, decodeHost w = .error why ∧ acceptWord w s = .next (raiseIllegalCommand s)) := by
  unfold acceptWord
  cases h : decodeHost w with
  | ok i => exact .inl ⟨i, rfl, rfl⟩
  | error why => exact .inr ⟨why, rfl, rfl⟩

/-- What the last event of a trace does, and what any other does (10_state R31). -/
theorem emitStep_last (e : Event) (post : Arch) (s : State) :
    emitStep e [] post s =
      { s with arch := (s.arch.setLine e.line e.level).keepLines post, ready := true, seq := .idle,
               trace := s.trace ++ [e] } := rfl

theorem emitStep_more (e e' : Event) (rest : List Event) (post : Arch) (s : State) :
    emitStep e (e' :: rest) post s =
      { s with arch := s.arch.setLine e.line e.level, seq := .busy e' rest post, trace := s.trace ++ [e] } := rfl

theorem setLine_eq_afterTrace (e : Event) (a : Arch) : a.setLine e.line e.level = a.afterTrace [e] := by
  obtain ⟨l, v⟩ := e
  cases l <;> rfl

/-! ### Runs -/

/-- A run of k + 1 steps whose first step answers a next state is the run of k steps from there. -/
theorem run_succ_of_step {s t : State} (h : step s = .next t) (k : Nat) :
    Host.Core.run Sys2Proof.core (k + 1) s = Host.Core.run Sys2Proof.core k t := by
  have h' : Sys2Proof.core.step s = .next t := h
  simp [Host.Core.run, h']

/-- Inputs quiet for n + 1 more steps are quiet for n after one step that leaves the inputs to come as they were. -/
theorem QuietFor.advance {n : Nat} {s u : State} (hp : u.ports = s.ports) (hf : u.future = s.future)
    (h : QuietFor (n + 2) s) : QuietFor (n + 1) (advancePorts u) := by
  obtain ⟨h1, h2⟩ := h
  unfold advancePorts
  split
  · rename_i hnil
    exact ⟨by rw [hp]; exact h1, by simp [hnil]⟩
  · rename_i p ps hcons
    rw [← hf, hcons] at h2
    exact ⟨h2 p (by simp), fun q hq => h2 q (by simp at hq ⊢; exact .inr hq)⟩

/-- Inputs quiet for some steps are quiet for fewer. -/
theorem QuietFor.mono {m n : Nat} {s : State} (h : QuietFor n s) (hle : m ≤ n) : QuietFor m s :=
  ⟨h.1, fun p hp => h.2 p (List.take_subset_take_left _ (by omega) hp)⟩

end Sys2Proof.Machine
end

