-- ==== Sys2Proof/Laws/Commands.lean ====
section
/-! SUPPORT. What every instruction does when it is accepted, said once: its trace and the registers it leaves. -/

namespace Sys2Proof.Machine

/-! ### Small facts -/

theorem launched_of_ne_nil {s : State} {t : List Event} (h : t ≠ []) (post : Arch) :
    ∃ e rest, t = e :: rest ∧ launched s t post = { s with ready := false, seq := .busy e rest post } := by
  cases t with
  | nil => exact absurd rfl h
  | cons e rest => exact ⟨e, rest, rfl, rfl⟩

/-- The wrapped position of a natural number is its plain remainder. -/
theorem wrap_natCast (n : BitVec 3) (p : Nat) : wrap n (p : Int) = p % n.toNat := by
  simp only [wrap]
  omega

/-- The frames of an addressed write in the notation of 42_display_ops. -/
theorem addressedFrames_eq (a : Arch) (p : Int) (d : Byte) :
    addressedFrames a p d = awFrames (ctrlByte a) (wrap a.posCnt p) d := rfl

/-- Writing 0x00 to each position below a legal count, wrapped or not, is the same. -/
theorem mirrorWrites_zeroWrites {n : BitVec 3} (m : Memory) :
    mirrorWrites n (zeroWrites n.toNat) m = (List.range n.toNat).foldl (fun m i => memWrite i 0#8 m) m := by
  have h : ∀ (ps : List Nat), (∀ p ∈ ps, p < n.toNat) → ∀ m : Memory,
      mirrorWrites n (ps.map fun (p : Nat) => ((p : Int), (0x00 : Byte))) m =
        ps.foldl (fun m i => memWrite i 0#8 m) m := by
    intro ps
    induction ps with
    | nil => intros; rfl
    | cons p ps ih =>
      intro hp m
      have := ih (fun q hq => hp q (List.mem_cons_of_mem _ hq)) (memWrite p 0x00 m)
      simpa [mirrorWrites, wrap_of_lt (hp p List.mem_cons_self)] using this
  exact h _ (fun p hp => List.mem_range.1 hp) m

theorem commandFrames_ne_nil {i : Instr} {cfg : Operand} {a : Arch} (hi : i.isHost = true)
    (h : posCntLegal a.posCnt = true) : commandFrames i cfg a ≠ [] := by
  have hz : ∀ n : BitVec 3, posCntLegal n = true → ∃ k, n.toNat = k + 1 := by
    intro n hn
    have := ((posCntLegal_iff n).1 hn).1
    exact ⟨n.toNat - 1, by omega⟩
  cases i <;> try simp [Instr.isHost] at hi
  case init count =>
    obtain ⟨k, hk⟩ := hz _ (posCount_legal (sint32 count))
    simp [commandFrames, commandWrites, zeroWrites, hk, List.range_succ_eq_map, addressedFrames]
  case clear =>
    obtain ⟨k, hk⟩ := hz _ h
    simp [commandFrames, commandWrites, zeroWrites, hk, List.range_succ_eq_map, addressedFrames]
  all_goals simp [commandFrames, commandWrites, digitWrites, addressedFrames]

/-! ### Host commands -/

/-- INIT sets POSCNT itself: it is accepted on every state, with the addressed writes of Clear to send. -/
theorem exec_init_eq (count : Operand) (s : State) :
    exec (.init count) s =
      .next (launched s (framesTrace (commandFrames (.init count) s.ports.cfgInitIntensity s.arch))
        (commandPost (.init count) s.ports.cfgInitIntensity s.arch)) := by
  refine launch_eq ?_ (framesTrace_ne_nil
    (commandFrames_ne_nil (i := .init count) (a := { s.arch with posCnt := 1 }) rfl (show posCntLegal 1 = true by decide)))
  simp only [constructDisplay]
  rw [clearAll_eq (by simpa using posCount_legal (sint32 count))]
  simp [commandPost, commandRegs, commandFrames, commandWrites, zeroWrites, zeroWrites_nil, Arch.onIdleBus,
    Arch.setDispOn, Arch.setBright, Arch.setPosCnt, Arch.zeroSegBuf, List.flatMap_map]
  rfl

/-- Every host command on a legal position count: it is accepted with the frames of 42_display_ops R132 to send and the
registers of R133 to commit. -/
theorem exec_host_eq {i : Instr} {s : State} (hi : i.isHost = true) (h : posCntLegal s.arch.posCnt = true) :
    exec i s = .next (launched s (framesTrace (commandFrames i s.ports.cfgInitIntensity s.arch))
      (commandPost i s.ports.cfgInitIntensity s.arch)) := by
  have hne := framesTrace_ne_nil (commandFrames_ne_nil (cfg := s.ports.cfgInitIntensity) hi h)
  cases i <;> try simp [Instr.isHost] at hi
  case init count =>
    exact exec_init_eq count s
  case intensity level =>
    refine launch_eq ?_ hne
    by_cases hv : sint32 level < 1
    · simp [setIntensity, turnOff, hv, sendBoth_eq, commandPost, commandRegs, commandFrames, commandWrites, mirrorWrites,
        Arch.onIdleBus, Arch.setDispOn]
    · simp [setIntensity, hv, sendBoth_eq, commandPost, commandRegs, commandFrames, commandWrites, mirrorWrites,
        Arch.onIdleBus, Arch.setDispOn, Arch.setBright]
  case showdig value position =>
    refine launchWrapping_eq h ?_ hne
    rw [setDigitAt_eq]
    simp [commandPost, commandRegs, commandFrames, commandWrites, mirrorWrites, Arch.onIdleBus, Arch.writeSeg]
  case shownum n =>
    refine launchWrapping_eq h ?_ hne
    simp only [showNumber, mirrorNondigitWrites, showDigits_eq]
    simp [commandPost, commandRegs, commandFrames, commandWrites, Arch.onIdleBus]
  case showhex n =>
    refine launchWrapping_eq h ?_ hne
    simp only [showHex, mirrorNondigitWrites, showDigits_eq]
    simp [commandPost, commandRegs, commandFrames, commandWrites, Arch.onIdleBus]
  case showdp position visible =>
    refine launchWrapping_eq h ?_ hne
    simp only [mirrorNondigitWrites, showDecimalPoint_eq (c := copyOf s) h]
    simp [commandPost, commandRegs, commandFrames, commandWrites, mirrorWrites, Arch.onIdleBus, Arch.writeSeg]
  case clear =>
    refine launchWrapping_eq h ?_ hne
    rw [clearAll_eq (by simpa using h)]
    simp [commandPost, commandRegs, commandFrames, commandWrites, mirrorWrites_zeroWrites, Arch.onIdleBus]
    simp [zeroWrites, List.flatMap_map]
  case on =>
    refine launch_eq ?_ hne
    simp [turnOn, sendBoth_eq, commandPost, commandRegs, commandFrames, commandWrites, mirrorWrites, Arch.onIdleBus,
      Arch.setDispOn]
  case off =>
    refine launch_eq ?_ hne
    simp [turnOff, sendBoth_eq, commandPost, commandRegs, commandFrames, commandWrites, mirrorWrites, Arch.onIdleBus,
      Arch.setDispOn]

/-- SEGBUF after mirrored writes is canonical. -/
theorem mirrorWrites_wf {n : BitVec 3} (hn : posCntLegal n = true) {m : Memory} (hm : Memory.wf m = true)
    (ws : List (Int × Byte)) : Memory.wf (mirrorWrites n ws m) = true := by
  induction ws generalizing m with
  | nil => exact hm
  | cons w ws ih => exact ih (memWrite_wf hm (wrap_lt_maxPos hn w.1) w.2)

/-- Mirrored writes leave every position that none of them wraps to. -/
theorem memRead_mirrorWrites_of_notMem {n : BitVec 3} {p : Nat} (ws : List (Int × Byte))
    (h : ∀ w ∈ ws, p ≠ wrap n w.1) (m : Memory) : memRead (mirrorWrites n ws m) p = memRead m p := by
  induction ws generalizing m with
  | nil => rfl
  | cons w ws ih =>
    have h1 := ih (fun x hx => h x (List.mem_cons_of_mem _ hx)) (memWrite (wrap n w.1) w.2 m)
    simpa [mirrorWrites, memRead_memWrite_ne (h w List.mem_cons_self)] using h1

/-- A host command leaves legal registers legal. -/
theorem commandPost_legal {i : Instr} (hi : i.isHost = true) (cfg : Operand) {a : Arch} (h : a.Legal) :
    (commandPost i cfg a).Legal := by
  obtain ⟨hn, hm, hz⟩ := h
  have hw : ∀ ws : List (Int × Byte), Memory.wf (mirrorWrites a.posCnt ws a.segBuf) = true ∧
      ∀ p, a.posCnt.toNat ≤ p → memRead (mirrorWrites a.posCnt ws a.segBuf) p = 0x00 := by
    intro ws
    refine ⟨mirrorWrites_wf hn hm ws, fun p hp => ?_⟩
    rw [memRead_mirrorWrites_of_notMem ws (fun w _ => ?_), hz p hp]
    have := wrap_lt hn w.1
    omega
  cases i <;> try simp [Instr.isHost] at hi
  case init count => exact ⟨posCount_legal _, rfl, fun p _ => rfl⟩
  case intensity level =>
    simp only [commandPost, commandRegs]
    split <;> exact ⟨hn, hw _⟩
  all_goals exact ⟨hn, hw _⟩

@[simp] theorem commandPost_lineClk (i : Instr) (cfg : Operand) (a : Arch) : (commandPost i cfg a).lineClk = true := rfl
@[simp] theorem commandPost_lineDio (i : Instr) (cfg : Operand) (a : Arch) : (commandPost i cfg a).lineDio = true := rfl

@[simp] theorem commandPost_ill (i : Instr) (cfg : Operand) (a : Arch) : (commandPost i cfg a).ill = a.ill := by
  cases i <;> try rfl
  case intensity level =>
    simp only [commandPost, commandRegs]
    split <;> rfl

end Sys2Proof.Machine
end

