-- ==== Sys2Proof/Laws/PerInstr.lean ====
section
/-! SUPPORT. Statements about every instruction as syntax, one lemma per constructor. -/

namespace Sys2Proof.Laws

/-! ### Fields of a command word -/

/-- OPC, A and B of a command word put together from them (30_encoding R66). -/
theorem fieldOpc_commandWord (o : Byte) (a b : Operand) : fieldOpc (commandWord o a b) = o := by
  apply BitVec.eq_of_getLsbD_eq
  intro i hi
  have h1 : ¬ 64 + i < 32 := by omega
  have h2 : ¬ 64 + i - 32 < 32 := by omega
  have h3 : 64 + i - 32 - 32 = i := by omega
  simp only [fieldOpc, commandWord, BitVec.getLsbD_extractLsb', BitVec.getLsbD_append, h1, h2, h3, hi, decide_true,
    Bool.true_and, if_false]

theorem fieldA_commandWord (o : Byte) (a b : Operand) : fieldA (commandWord o a b) = a := by
  apply BitVec.eq_of_getLsbD_eq
  intro i hi
  have h1 : ¬ 32 + i < 32 := by omega
  have h2 : 32 + i - 32 = i := by omega
  simp only [fieldA, commandWord, BitVec.getLsbD_extractLsb', BitVec.getLsbD_append, h1, h2, hi, decide_true,
    Bool.true_and, if_false, if_true]

theorem fieldB_commandWord (o : Byte) (a b : Operand) : fieldB (commandWord o a b) = b := by
  apply BitVec.eq_of_getLsbD_eq
  intro i hi
  have h1 : 0 + i = i := by omega
  simp only [fieldB, commandWord, BitVec.getLsbD_extractLsb', BitVec.getLsbD_append, h1, hi, decide_true,
    Bool.true_and, if_true]

/-- Two command words are equal when their three fields are. -/
theorem commandWord_fields (w : CommandWord) : commandWord (fieldOpc w) (fieldA w) (fieldB w) = w := by
  apply BitVec.eq_of_getLsbD_eq
  intro i hi
  simp only [commandWord, fieldOpc, fieldA, fieldB, BitVec.getLsbD_append, BitVec.getLsbD_extractLsb']
  by_cases h1 : i < 32
  · simp [h1]
  · by_cases h2 : i - 32 < 32
    · have : 32 + (i - 32) = i := by omega
      simp [h1, h2, this]
    · have h3 : i - 32 - 32 < 8 := by omega
      have : 64 + (i - 32 - 32) = i := by omega
      simp [h1, h2, h3, this]

/-- Masking a command word masks its fields. -/
theorem commandWord_and (o o' : Byte) (a a' b b' : Operand) :
    commandWord o a b &&& commandWord o' a' b' = commandWord (o &&& o') (a &&& a') (b &&& b') := by
  apply BitVec.eq_of_getLsbD_eq
  intro i hi
  simp only [commandWord, BitVec.getLsbD_append, BitVec.getLsbD_and]
  split
  · rfl
  · split <;> rfl

/-- The reserved bits 31:1 and the bit 0 of a SHOWDP word (30_encoding R67, decision D22). -/
theorem showdp_word_low (position : Operand) (visible : Bool) :
    (commandWord 6 position (visibleField visible)).extractLsb' 1 31 = 0 ∧
      (commandWord 6 position (visibleField visible)).getLsbD 0 = visible := by
  constructor
  · apply BitVec.eq_of_getLsbD_eq
    intro i hi
    have h1 : 1 + i < 32 := by omega
    have hz : (visibleField visible).getLsbD (1 + i) = false := by cases visible <;> simp [visibleField]
    simp only [commandWord, BitVec.getLsbD_extractLsb', BitVec.getLsbD_append, h1, if_true, hz]
    simp
  · cases visible <;>
      (simp only [commandWord, BitVec.getLsbD_append, show (0 : Nat) < 32 by decide, if_true]; decide)

end Sys2Proof.Laws

/-! ### Every instruction's code meets its row of the opcode table -/

namespace Sys2Proof.Laws.MeetsRow

/-- The code of an instruction meets its row of spec/opcode_table.json: a host command's word meets the match and mask of
30_encoding R69, a wire byte the value and the place in its frame of 30_encoding R78 and R79. -/
def Statement (i : Instr) : Prop :=
  match encode i with
  | .host w => ∃ row ∈ hostRows, row.mnemonic = i.mnemonic ∧ w &&& row.mask = row.value
  | .wire b =>
    (i.mnemonic = "DATA_CMD" ∧ b.pos = .only ∧ b.byte = 0x40) ∨
    (i.mnemonic = "ADDR_CMD" ∧ b.pos = .first ∧ b.byte &&& 0xF0 = 0xC0) ∨
    (i.mnemonic = "DISP_CTRL" ∧ b.pos = .only ∧ b.byte &&& 0x80 = 0x80) ∨
    (i.mnemonic = "SEG_DATA" ∧ b.pos = .second)

theorem and_allOnes_row (o : Byte) (a b : Operand) (ma mb : Operand) :
    commandWord o a b &&& commandWord 0xFF ma mb = commandWord o (a &&& ma) (b &&& mb) := by
  rw [commandWord_and]
  congr 1
  exact BitVec.and_allOnes

theorem init (count : Operand) : Statement (.init count) := by
  refine ⟨⟨"INIT", commandWord 0x01 0 0, commandWord 0xFF 0 0xFFFFFFFF⟩, by decide, rfl, ?_⟩
  rw [and_allOnes_row]; simp

theorem intensity (level : Operand) : Statement (.intensity level) := by
  refine ⟨⟨"INTENSITY", commandWord 0x02 0 0, commandWord 0xFF 0 0xFFFFFFFF⟩, by decide, rfl, ?_⟩
  rw [and_allOnes_row]; simp

theorem showdig (value position : Operand) : Statement (.showdig value position) := by
  refine ⟨⟨"SHOWDIG", commandWord 0x03 0 0, commandWord 0xFF 0 0⟩, by decide, rfl, ?_⟩
  rw [and_allOnes_row]; simp

theorem shownum (n : Operand) : Statement (.shownum n) := by
  refine ⟨⟨"SHOWNUM", commandWord 0x04 0 0, commandWord 0xFF 0 0xFFFFFFFF⟩, by decide, rfl, ?_⟩
  rw [and_allOnes_row]; simp

theorem showhex (n : Operand) : Statement (.showhex n) := by
  refine ⟨⟨"SHOWHEX", commandWord 0x05 0 0, commandWord 0xFF 0 0xFFFFFFFF⟩, by decide, rfl, ?_⟩
  rw [and_allOnes_row]; simp

theorem showdp (position : Operand) (visible : Bool) : Statement (.showdp position visible) := by
  refine ⟨⟨"SHOWDP", commandWord 0x06 0 0, commandWord 0xFF 0 0xFFFFFFFE⟩, by decide, rfl, ?_⟩
  rw [and_allOnes_row]
  cases visible <;> simp [visibleField]

theorem clear : Statement .clear :=
  ⟨⟨"CLEAR", commandWord 0x07 0 0, commandWord 0xFF 0xFFFFFFFF 0xFFFFFFFF⟩, by decide, rfl, by decide⟩
theorem on : Statement .on :=
  ⟨⟨"ON", commandWord 0x08 0 0, commandWord 0xFF 0xFFFFFFFF 0xFFFFFFFF⟩, by decide, rfl, by decide⟩
theorem off : Statement .off :=
  ⟨⟨"OFF", commandWord 0x09 0 0, commandWord 0xFF 0xFFFFFFFF 0xFFFFFFFF⟩, by decide, rfl, by decide⟩
theorem dataCmd : Statement .dataCmd := .inl ⟨rfl, rfl, rfl⟩

theorem addrCmd (address : BitVec 4) : Statement (.addrCmd address) := by
  refine .inr (.inl ⟨rfl, rfl, ?_⟩)
  revert address
  decide

theorem dispCtrl (low : BitVec 7) : Statement (.dispCtrl low) := by
  refine .inr (.inr (.inl ⟨rfl, rfl, ?_⟩))
  revert low
  decide

theorem segData (code : Byte) : Statement (.segData code) := .inr (.inr (.inr ⟨rfl, rfl⟩))

end Sys2Proof.Laws.MeetsRow
end

