-- ==== Sys2Proof/Tests/Slice0.lean ====
section
/-! SUPPORT. Tests of one step each against 95_test_vectors, and for every statement with hypotheses a state that meets
them. -/

open Sys2Proof Sys2Proof.Machine

set_option maxRecDepth 20000

namespace Sys2Proof.Tests

/-! ### Helpers -/

/-- An idle block with these registers (the notation of 95_test_vectors), nothing offered. -/
def idleAt (posCnt : BitVec 3) (segBuf : Memory) (dispOn : Bool) (bright : Byte) : State :=
  { State.reset with
    arch := { Arch.atReset with posCnt := posCnt, segBuf := segBuf, dispOn := dispOn, bright := bright }
    ready := true, seq := .idle }

/-- The registers an accepted instruction is to commit. -/
def pending : Host.Outcome State Fault Refusal → Option Arch
  | .next t =>
    match t.seq with
    | .busy _ _ post => some post
    | _ => none
  | _ => none

/-- The events an accepted instruction is to emit. -/
def events : Host.Outcome State Fault Refusal → List Event
  | .next t =>
    match t.seq with
    | .busy e rest _ => e :: rest
    | _ => []
  | _ => []

/-- SEGBUF[0..4]. -/
def segs (a : Arch) : List Byte := (List.range 5).map (memRead a.segBuf)

/-- A state that offers the word `w` to an idle block. -/
def offering (w : CommandWord) : State :=
  { idleAt 4 [] true 7 with ports := { Ports.atReset with cmdValid := true, cmdWord := w } }

/-- A state with one event left, whose pending registers are those of `idleAt`. -/
def lastEvent : State :=
  { idleAt 4 [] true 7 with ready := false, seq := .busy ⟨.dio, true⟩ [] Arch.atReset }

/-! ### Well-formedness and decoding -/

/-- An ADDR_CMD to the address 5, which is never written (20_memory R58), is no well-formed instruction. -/
theorem test_wellFormed_refuses_address_five : ¬ (Instr.addrCmd 5).WellFormed := by decide

theorem test_wellFormed_admits_address_four : (Instr.addrCmd 4).WellFormed := by decide

/-- 95_test_vectors T11: the words that decode. -/
theorem test_decode_showdp : decodeHost 0x06_00000001_00000001 = .ok (.showdp 1 true) := by decide
theorem test_decode_showdig : decodeHost 0x03_FFFFFFFF_FFFFFFFF = .ok (.showdig (-1) (-1)) := by decide
theorem test_decode_intensity : decodeHost 0x02_80000000_00000000 = .ok (.intensity 0x80000000) := by decide

/-- 30_encoding R77: one word for each other host command. -/
theorem test_decode_init : decodeHost 0x01_00000004_00000000 = .ok (.init 4) := by decide
theorem test_decode_shownum : decodeHost 0x04_FFFFFFF9_00000000 = .ok (.shownum (-7)) := by decide
theorem test_decode_showhex : decodeHost 0x05_000002AF_00000000 = .ok (.showhex 0x2AF) := by decide
theorem test_decode_clear : decodeHost 0x07_00000000_00000000 = .ok .clear := by decide
theorem test_decode_on : decodeHost 0x08_00000000_00000000 = .ok .on := by decide
theorem test_decode_off : decodeHost 0x09_00000000_00000000 = .ok .off := by decide

/-- 30_encoding R78: one byte for each wire row, in its place of a frame. -/
theorem test_decode_dataCmd : decodeWire ⟨.only, 0b01000000⟩ = .ok .dataCmd := by decide
theorem test_decode_addrCmd : decodeWire ⟨.first, 0b11000010⟩ = .ok (.addrCmd 2) := by decide
theorem test_decode_dispCtrl : decodeWire ⟨.only, 0b10001111⟩ = .ok (.dispCtrl 0b0001111) := by decide
theorem test_decode_segData : decodeWire ⟨.second, 0b01011011⟩ = .ok (.segData 0x5B) := by decide

/-- The same byte in different places (30_encoding R79): 0xC0 as an address, as data and as a control byte. -/
theorem test_decode_by_place :
    decodeWire ⟨.first, 0xC0⟩ = .ok (.addrCmd 0) ∧ decodeWire ⟨.second, 0xC0⟩ = .ok (.segData 0xC0) ∧
      decodeWire ⟨.only, 0xC0⟩ = .ok (.dispCtrl 0x40) := by decide

/-- 95_test_vectors T11: the words that are illegal, and why. -/
theorem test_decode_illegal :
    decodeHost 0x00_00000000_00000000 = .error .illegalOpcode ∧
    decodeHost 0x0A_00000000_00000000 = .error .illegalOpcode ∧
    decodeHost 0xFF_FFFFFFFF_FFFFFFFF = .error .illegalOpcode ∧
    decodeHost 0x01_00000004_00000001 = .error .reservedNotZero ∧
    decodeHost 0x04_0000002A_80000000 = .error .reservedNotZero ∧
    decodeHost 0x06_00000001_00000002 = .error .reservedNotZero ∧
    decodeHost 0x07_00000001_00000000 = .error .reservedNotZero ∧
    decodeHost 0x08_00000000_00000001 = .error .reservedNotZero ∧
    decodeHost 0x09_80000000_00000000 = .error .reservedNotZero := by decide

/-- Bytes that the block never sends in that place. -/
theorem test_decode_not_sent :
    decodeWire ⟨.only, 0x7F⟩ = .error .notSoleByte ∧ decodeWire ⟨.first, 0x40⟩ = .error .notAddressCommand ∧
      decodeWire ⟨.first, 0xC5⟩ = .error .addressNeverWritten := by decide

/-! ### The instructions (95_test_vectors L1 and L2) -/

/-- T2: WriteByte(0x40) from CLK = 0, event by event. -/
theorem test_writeByte :
    (writeByte 0x40 ⟨{ Arch.atReset with lineClk := false }, []⟩).trace.map (fun e => (e.line == .dio, e.level)) =
      [(false, false), (true, false), (false, true), (false, false), (true, false), (false, true),
       (false, false), (true, false), (false, true), (false, false), (true, false), (false, true),
       (false, false), (true, false), (false, true), (false, false), (true, false), (false, true),
       (false, false), (true, true), (false, true), (false, false), (true, false), (false, true),
       (false, true), (false, false)] := by decide

/-- V8: INIT 3 leaves three positions and the unclamped configured brightness. -/
theorem test_init_three :
    (pending (exec (.init 3) { idleAt 4 [(2, 0x5B)] false 0 with
      ports := { Ports.atReset with cfgInitIntensity := 0xFFFFFF40 } })).map
        (fun a => (a.posCnt, segs a, a.dispOn, a.bright)) =
      some (3, [0, 0, 0, 0, 0], true, 0x40) := by decide

/-- V8: INIT 6 is out of range and gives 4 positions, not 5. -/
theorem test_init_six : (pending (exec (.init 6) (idleAt 5 [] true 7))).map (·.posCnt) = some 4 := by decide

/-- V7: INTENSITY 9 stores 7, and 0 turns the display off and keeps BRIGHT. -/
theorem test_intensity_nine :
    (pending (exec (.intensity 9) (idleAt 4 [] false 5))).map (fun a => (a.dispOn, a.bright)) = some (true, 7) := by decide
theorem test_intensity_zero :
    (pending (exec (.intensity 0) (idleAt 4 [] true 5))).map (fun a => (a.dispOn, a.bright)) = some (false, 5) := by decide

/-- V9: SHOWDIG -2147483648, -6 writes SEG_TABLE[0] to position 2; SHOWDIG -1, -1 writes SEG_TABLE[15] to position 3. -/
theorem test_showdig_wraps :
    (pending (exec (.showdig 0x80000000 0xFFFFFFFA) (idleAt 4 [] true 7))).map segs = some [0, 0, 0x3F, 0, 0] := by decide
theorem test_showdig_negative :
    (pending (exec (.showdig (-1) (-1)) (idleAt 4 [] true 7))).map segs = some [0, 0, 0, 0x71, 0] := by decide

/-- T7: -2147483648 at four positions, and -7 at three, where the units digit overwrites the minus sign. -/
theorem test_shownum_most_negative :
    (pending (exec (.shownum 0x80000000) (idleAt 4 [] true 7))).map segs = some [0x40, 0x7D, 0x66, 0x7F, 0] := by decide
theorem test_shownum_three_positions :
    (pending (exec (.shownum (-7)) (idleAt 3 [] true 7))).map segs = some [0x07, 0x3F, 0x3F, 0, 0] := by decide

/-- T8: -0x1F, and 0xBEEF at two positions. -/
theorem test_showhex_negative :
    (pending (exec (.showhex 0xFFFFFFE1) (idleAt 4 [] true 7))).map segs = some [0x40, 0x3F, 0x06, 0x71, 0] := by decide
theorem test_showhex_two_positions :
    (pending (exec (.showhex 0xBEEF) (idleAt 2 [] true 7))).map segs = some [0x79, 0x79, 0, 0, 0] := by decide

/-- T9: SHOWDP 4, 1 wraps to the minus sign at position 0; SHOWDP -1, 0 clears bit 7 of position 3. -/
theorem test_showdp_sets :
    (pending (exec (.showdp 4 true) (idleAt 4 [(0, 0x40)] true 7))).map segs = some [0xC0, 0, 0, 0, 0] := by decide
theorem test_showdp_clears :
    (pending (exec (.showdp (-1) false) (idleAt 4 [(3, 0xBF)] true 7))).map segs = some [0, 0, 0, 0x3F, 0] := by decide

/-- V6: CLEAR at three positions clears those and sends 357 events. -/
theorem test_clear_segs :
    (pending (exec .clear (idleAt 3 [(0, 1), (1, 2), (2, 3)] true 2))).map segs = some [0, 0, 0, 0, 0] := by decide
theorem test_clear_length : (events (exec .clear (idleAt 3 [(0, 1)] true 2))).length = 357 := by decide

/-- T10: ON and OFF with BRIGHT = 2, their frames as the monitor reads them, and OFF with an unclamped BRIGHT. -/
theorem test_on : monitorFrames (events (exec .on (idleAt 4 [] false 2))) = [[0x40], [0x8A]] := by decide
theorem test_off : monitorFrames (events (exec .off (idleAt 4 [] true 2))) = [[0x40], [0x82]] := by decide
theorem test_off_unclamped : monitorFrames (events (exec .off (idleAt 4 [] true 0xFF))) = [[0x40], [0xFF]] := by decide

/-- T3: the wire bytes of an addressed write of 0x5B to position 6 of four. -/
theorem test_dataCmd : monitorFrames (events (exec .dataCmd (idleAt 4 [] true 7))) = [[0x40]] := by decide
theorem test_addrCmd :
    events (exec (.addrCmd 2) (idleAt 4 [] true 7)) = startTrace ++ byteTrace 0xC2 := by decide
theorem test_dispCtrl : monitorFrames (events (exec (.dispCtrl 0x0F) (idleAt 4 [] true 7))) = [[0x8F]] := by decide
theorem test_segData :
    monitorFrames (events (exec (.addrCmd 2) (idleAt 4 [] true 7)) ++
      events (exec (.segData 0x5B) (idleAt 4 [] true 7))) = [[0xC2, 0x5B]] := by decide

/-- T11, T13: an offered illegal word sets ILL, keeps READY at 1 and emits nothing. -/
theorem test_illegal_step :
    step (offering 0x0A_00000000_00000000) =
      .next { offering 0x0A_00000000_00000000 with
        arch := { (offering 0x0A_00000000_00000000).arch with ill := true } } := by rfl

/-- T12: the first step after reset is the CONSTRUCT step: no event, READY 0, 476 events to come. -/
theorem test_construct_step :
    (match step State.reset with | .next t => (t.trace, t.ready, t.arch) | _ => ([], true, Arch.atReset)) =
      ([], false, Arch.atReset) ∧
    (events (step State.reset)).length = 476 := by decide

/-- T12: a reset in mid-trace discards the pending state and emits nothing. -/
theorem test_reset_step :
    step { lastEvent with ports := { Ports.atReset with reset := true } } =
      .next { State.reset with ports := { Ports.atReset with reset := true } } := by rfl

/-! ### A placed table word runs as the next step's instruction -/

theorem test_placed_host :
    step (State.reset.withFetchWord 72 0x08_00000000_00000000) =
      exec .on (State.reset.withFetchWord 72 0x08_00000000_00000000) := by rfl
theorem test_placed_wire :
    step (State.reset.withFetchWord 8 0xC0) = exec (.addrCmd 0) (State.reset.withFetchWord 8 0xC0) := by rfl

/-! ### Witnesses: for every statement with hypotheses, a state and operands that meet all of them

Each theorem is named after its statement. A statement with several clauses has one for each, at the ends of its ranges. -/

theorem witness_DecodeOfEncodeIsTheInstruction :
    (Instr.addrCmd 0).WellFormed ∧ (Instr.addrCmd 4).WellFormed ∧ (Instr.showdig 0x80000000 0xFFFFFFFF).WellFormed := by
  decide

theorem witness_EncodeOfDecodeIsTheCode :
    decode (.host 0x06_00000001_00000001) = .ok (.showdp 1 true) ∧ decode (.wire ⟨.first, 0xC4⟩) = .ok (.addrCmd 4) := by
  decide

theorem witness_MnemonicExactlyOnMatchAndMask :
    ∃ r ∈ hostRows, (0x06_00000001_00000001 : CommandWord) &&& r.mask = r.value := by decide

/-- One word for each way of being illegal, at the ends of the opcode ranges, and a legal word. -/
theorem witness_IllegalWordsAndTheirEffect :
    (fieldOpc 0x00_00000000_00000000).toNat = 0 ∧ (fieldOpc 0x0A_00000000_00000000).toNat = 0x0A ∧
    ((fieldOpc 0x01_00000004_00000001).toNat = 0x01 ∧ fieldB 0x01_00000004_00000001 ≠ 0) ∧
    ((fieldOpc 0x06_00000001_00000002).toNat = 0x06 ∧ 2 ≤ (fieldB 0x06_00000001_00000002).toNat) ∧
    ((fieldOpc 0x09_80000000_00000000).toNat = 0x09 ∧ fieldA 0x09_80000000_00000000 ≠ 0) ∧
    decodeHost 0x09_00000000_00000000 = .ok .off := by decide

/-- Both ends of the range of `a`, and one value beyond each. -/
theorem witness_PosCountDefaultsToFour :
    posCount 1 = 1 ∧ posCount 5 = 5 ∧ posCount 0 = 4 ∧ posCount 6 = 4 := by decide

theorem witness_AddressBytesStayInRange : posCntLegal 1 = true ∧ posCntLegal 5 = true := by decide

theorem witness_ControlByteFields :
    (idleAt 4 [] true 7).arch.bright.toNat ≤ 7 ∧ (idleAt 4 [] true 0).arch.bright.toNat ≤ 7 ∧
      (ctrlByte (idleAt 4 [] true 7).arch).toNat = 0x8F := by decide

theorem witness_WriteByteClocksEachBitOnce :
    (⟨{ Arch.atReset with lineClk := false }, []⟩ : Copy).arch.lineClk = false := by decide

theorem witness_AddrCmdAndSegDataSendTheirBytes : posCntLegal (idleAt 5 [] true 7).arch.posCnt = true := by decide
theorem witness_AddressedWriteIsItsFourWireBytes : posCntLegal (idleAt 1 [] true 7).arch.posCnt = true := by decide
theorem witness_ShowdigResult : posCntLegal (idleAt 1 [] true 7).arch.posCnt = true := by decide
theorem witness_ShownumResult : posCntLegal (idleAt 3 [] true 7).arch.posCnt = true := by decide
theorem witness_ShowhexResult : posCntLegal (idleAt 2 [] true 7).arch.posCnt = true := by decide
theorem witness_ShowdpResult : posCntLegal (idleAt 5 [(4, 0x80)] false 0).arch.posCnt = true := by decide
theorem witness_ClearResult : posCntLegal (idleAt 5 [(4, 0x80)] false 3).arch.posCnt = true := by decide

/-- Both values outside 1..5 at its ends. -/
theorem witness_PositionCommandsStopOnIllegalPosCount :
    posCntLegal (idleAt 0 [] true 7).arch.posCnt = false ∧ posCntLegal (idleAt 6 [] true 7).arch.posCnt = false := by decide

/-- Each clause at its boundary: 0, then 1 and 8, then 8 again, where the two clauses agree. -/
theorem witness_IntensityForEveryLevel :
    (0 : Operand).toInt < 1 ∧ (1 ≤ (1 : Operand).toInt ∧ (1 : Operand).toInt ≤ 8) ∧
      (1 ≤ (8 : Operand).toInt ∧ (8 : Operand).toInt ≤ 8) ∧ 8 ≤ (8 : Operand).toInt ∧
      8 ≤ (0x7FFFFFFF : Operand).toInt := by decide

theorem witness_PowerStateTransitions :
    (Instr.intensity 0).isHost = true ∧ Instr.off.isHost = true ∧ Instr.on.isHost = true ∧ Instr.clear.isHost = true ∧
      posCntLegal State.reset.arch.posCnt = true := by decide

theorem witness_OffThenOnRestoresBrightness : (0 : Operand).toInt < 1 ∧ (0x80000000 : Operand).toInt < 1 := by decide

/-- The registers at reset are legal. -/
theorem reset_legal : State.reset.arch.Legal := ⟨by decide, by decide, fun _ _ => rfl⟩

/-- Idle blocks with an empty buffer and a legal position count are legal. -/
theorem idleAt_legal {n : BitVec 3} (h : posCntLegal n = true) (on : Bool) (b : Byte) : (idleAt n [] on b).arch.Legal :=
  ⟨h, rfl, fun _ _ => rfl⟩

/-- A byte whose bit 7 is 0, and one whose bit 7 is 1. -/
theorem witness_DecimalPointRoundTrip :
    State.reset.arch.Legal ∧ (memRead State.reset.arch.segBuf (wrap State.reset.arch.posCnt (1 : Operand).toInt)).getLsbD 7 = false :=
  ⟨reset_legal, by decide⟩

theorem witness_ClearLeavesEveryPositionZero : (idleAt 5 [] true 7).arch.Legal := idleAt_legal (by decide) _ _

/-- Every clause on the position count, at each of its values. -/
theorem witness_ShownumAtEachPositionCount :
    (idleAt 5 [] true 7).arch.Legal ∧ (idleAt 4 [] true 7).arch.Legal ∧ (idleAt 3 [] true 7).arch.Legal ∧
      (idleAt 2 [] true 7).arch.Legal ∧ (idleAt 1 [] true 7).arch.Legal :=
  ⟨idleAt_legal (by decide) _ _, idleAt_legal (by decide) _ _, idleAt_legal (by decide) _ _,
    idleAt_legal (by decide) _ _, idleAt_legal (by decide) _ _⟩

theorem witness_ShowhexAtEachPositionCount :
    (idleAt 5 [] true 7).arch.Legal ∧ (idleAt 4 [] true 7).arch.Legal ∧ (idleAt 3 [] true 7).arch.Legal ∧
      (idleAt 2 [] true 7).arch.Legal ∧ (idleAt 1 [] true 7).arch.Legal :=
  witness_ShownumAtEachPositionCount

theorem witness_WithoutMirrorRawWritesLeaveSegbuf : posCntLegal (copyOf (idleAt 4 [(1, 0x3F)] true 7)).arch.posCnt = true := by
  decide

theorem witness_MirrorLawOfEveryCommand :
    (Instr.shownum 42).isHost = true ∧ (idleAt 3 [] true 7).arch.Legal ∧ (0 < (idleAt 3 [] true 7).arch.posCnt.toNat) :=
  ⟨rfl, idleAt_legal (by decide) _ _, by decide⟩

theorem witness_RepeatedCommandIsIdempotent : (Instr.showdp 1 true).isHost = true ∧ (idleAt 1 [] true 7).arch.Legal :=
  ⟨rfl, idleAt_legal (by decide) _ _⟩

theorem witness_HostCommandTraceLengths :
    ((Instr.init 0).isHost = true ∧ posCntLegal State.reset.arch.posCnt = true) ∧
      decodeHost 0x0A_00000000_00000000 = .error .illegalOpcode := by decide

theorem witness_MonitorReadsEveryCommandBack :
    Instr.clear.isHost = true ∧ posCntLegal (idleAt 5 [] false 0xFF).arch.posCnt = true := by decide

/-- A next state for each shape of instruction. -/
theorem witness_RegistersEachInstructionMayWrite :
    (∃ t, exec (.init 3) State.reset = .next t) ∧ (∃ t, exec (.intensity 0) State.reset = .next t) ∧
      (∃ t, exec .on State.reset = .next t) ∧ (∃ t, exec (.showdig 10 2) State.reset = .next t) ∧
      (∃ t, exec (.shownum (-7)) State.reset = .next t) ∧ (∃ t, exec .clear State.reset = .next t) ∧
      (∃ t, exec (.addrCmd 4) State.reset = .next t) :=
  ⟨⟨_, rfl⟩, ⟨_, rfl⟩, ⟨_, rfl⟩, ⟨_, rfl⟩, ⟨_, rfl⟩, ⟨_, rfl⟩, ⟨_, rfl⟩⟩

theorem witness_ResetStepWins :
    ({ lastEvent with ports := { Ports.atReset with reset := true } } : State).ports.reset = true := by decide

/-- An offered word, a wire byte requested, and construction pending. -/
theorem witness_StepRunsTheDecodedInstruction :
    ((offering 0x08_00000000_00000000).ports.reset = false ∧ (offering 0x08_00000000_00000000).seq = .idle ∧
      (offering 0x08_00000000_00000000).ready = true ∧
      (offering 0x08_00000000_00000000).ports.cmdValid = true ∧
      decodeHost (offering 0x08_00000000_00000000).ports.cmdWord = .ok .on) ∧
    ((State.reset.withFetchWord 8 0xC4).ports.reset = false ∧ (State.reset.withFetchWord 8 0xC4).seq = .transport ⟨.first, 0xC4⟩ ∧
      decodeWire ⟨.first, 0xC4⟩ = .ok (.addrCmd 4)) ∧
    (State.reset.ports.reset = false ∧ State.reset.seq = .construct) := by decide

theorem witness_IllegalCommandStep :
    (offering 0x06_00000001_00000002).ports.reset = false ∧ (offering 0x06_00000001_00000002).seq = .idle ∧
      (offering 0x06_00000001_00000002).ready = true ∧
      (offering 0x06_00000001_00000002).ports.cmdValid = true ∧
      decodeHost (offering 0x06_00000001_00000002).ports.cmdWord = .error .reservedNotZero := by decide

theorem witness_IdleStepHolds :
    (idleAt 4 [] true 7).ports.reset = false ∧ (idleAt 4 [] true 7).seq = .idle ∧
      (idleAt 4 [] true 7).ports.cmdValid = false := by decide

/-- The last event of a trace, and one before it. -/
theorem witness_BusyStepEmitsOneEvent :
    (lastEvent.ports.reset = false ∧ lastEvent.seq = .busy ⟨.dio, true⟩ [] Arch.atReset) ∧
      ∃ e e' rest post, ({ lastEvent with seq := .busy ⟨.clk, true⟩ [⟨.dio, true⟩] Arch.atReset } : State).seq =
        .busy e (e' :: rest) post :=
  ⟨⟨rfl, rfl⟩, _, _, _, _, rfl⟩

theorem witness_AtMostOneLineWritePerStep : (∃ t, step lastEvent = .next t) ∧ ∃ t, step State.reset = .next t :=
  ⟨⟨_, rfl⟩, ⟨_, rfl⟩⟩

theorem witness_BusyStepIgnoresTheHost :
    lastEvent.seq = .busy ⟨.dio, true⟩ [] Arch.atReset ∧ lastEvent.ports.reset = false ∧
      (offering 0x08_00000000_00000000).ports.reset = false ∧ lastEvent.future = [] := by decide

theorem witness_OnlyInitReadsTheConfiguration : ∀ a, Instr.clear ≠ .init a := fun _ h => nomatch h

/-- One event, and two. -/
theorem witness_TraceDrainsInOrderThenCommits :
    (lastEvent.seq = .busy ⟨.dio, true⟩ [] Arch.atReset ∧ lastEvent.ready = false ∧ QuietFor 1 lastEvent) ∧
      QuietFor 2 { lastEvent with seq := .busy ⟨.clk, true⟩ [⟨.dio, true⟩] Arch.atReset } :=
  ⟨⟨rfl, rfl, rfl, by decide⟩, rfl, by decide⟩

theorem witness_LegalCommandRunsToCompletion :
    Instr.on.isHost = true ∧ posCntLegal (offering 0x08_00000000_00000000).arch.posCnt = true ∧
      (offering 0x08_00000000_00000000).seq = .idle ∧ (offering 0x08_00000000_00000000).ready = true ∧
      (offering 0x08_00000000_00000000).ports.cmdValid = true ∧
      decodeHost (offering 0x08_00000000_00000000).ports.cmdWord = .ok .on ∧
      QuietFor 63 (offering 0x08_00000000_00000000) :=
  ⟨rfl, rfl, rfl, rfl, rfl, by decide, rfl, fun _ h => nomatch h⟩

/-- No input to come, so the inputs of T12 hold throughout. -/
theorem witness_ConstructionRun :
    QuietFor (119 * 4 + 1)
      { State.reset with
        ports := { Ports.atReset with cfgPositionCount := 4, cfgInitIntensity := 7 }, future := [] } :=
  ⟨rfl, fun _ h => nomatch h⟩

/-- The invariant at reset, in an idle block, and in the middle of a trace. -/
theorem witness_EveryStepKeepsTheInvariant :
    (Inv State.reset ∧ ∃ t, step State.reset = .next t) ∧ Inv lastEvent :=
  ⟨⟨⟨reset_legal, by decide, rfl, rfl⟩, _, rfl⟩,
    ⟨idleAt_legal (by decide) _ _, by decide, reset_legal, ⟨rfl, rfl⟩, rfl, rfl, rfl⟩⟩

theorem witness_NoReachableStepStops : Inv State.reset := witness_EveryStepKeepsTheInvariant.1.1

/-- An idle block with nothing offered, one with a word offered, and a step that answers a next state. -/
theorem witness_NoHostMoveWritesTheLines :
    (Inv (idleAt 4 [] true 7) ∧ (idleAt 4 [] true 7).seq = .idle ∧ Ports.atReset.reset = false ∧
      Ports.atReset.cmdValid = false) ∧
    ((offering 0x08_00000000_00000000).ports.reset = false ∧ (offering 0x08_00000000_00000000).ports.cmdValid = true) ∧
    ∃ t, step (State.reset.withFetchWord 8 0x40) = .next t :=
  ⟨⟨⟨idleAt_legal (by decide) _ _, by decide, rfl, rfl⟩, rfl, rfl, rfl⟩, ⟨rfl, rfl⟩, _, rfl⟩

/-- ILL set before the step, and an illegal word that sets it. -/
theorem witness_IllIsSticky :
    (Inv { idleAt 4 [] true 7 with arch := { (idleAt 4 [] true 7).arch with ill := true } }) ∧
      Inv (offering 0x0A_00000000_00000000) ∧ (offering 0x0A_00000000_00000000).ports.reset = false ∧
      (offering 0x0A_00000000_00000000).arch.ill = false ∧
      ∃ t, step (offering 0x0A_00000000_00000000) = .next t ∧ t.arch.ill = true :=
  ⟨⟨⟨by decide, rfl, fun _ _ => rfl⟩, by decide, rfl, rfl⟩,
    ⟨⟨by decide, rfl, fun _ _ => rfl⟩, by decide, rfl, rfl⟩, rfl, rfl, _, rfl, rfl⟩

end Sys2Proof.Tests
end

section
/-! PROOFS. The registers and the sequencer of 10_state: the invariant every step keeps, what one bus step emits and
changes, and how a trace drains. -/

namespace Sys2Proof.Machine

/-! ### The decoder: only host commands come out of a command word -/

theorem ifReservedZero_eq_ok {zero : Bool} {i j : Instr} :
    ifReservedZero zero i = .ok j ↔ zero = true ∧ i = j := by
  cases zero <;> simp [ifReservedZero]

/-- A command word decodes to a HOSTCMD row, never to a WIRE row (30_encoding R65). -/
theorem isHost_of_decodeHost {w : CommandWord} {i : Instr} (h : decodeHost w = .ok i) : i.isHost = true := by
  unfold decodeHost at h
  split at h
  case h_3 => cases h; rfl
  case h_10 => cases h
  all_goals
    obtain ⟨-, rfl⟩ := ifReservedZero_eq_ok.1 h
    rfl

/-- The word of the construction run is INIT with CFG_POSITION_COUNT (70_reset_and_hazards R151). -/
theorem acceptWord_constructWord (s : State) :
    acceptWord (constructWord s) s = exec (.init s.ports.cfgPositionCount) s := by
  have h : decodeHost (constructWord s) = .ok (.init s.ports.cfgPositionCount) := by
    simp [decodeHost, constructWord, ifReservedZero, Laws.fieldOpc_commandWord, Laws.fieldA_commandWord,
      Laws.fieldB_commandWord]
  simp [acceptWord, h]

/-! ### What a line write and an emission leave -/

theorem Arch.setLine_lineClk (l : Line) (v : Bool) (a : Arch) :
    (a.setLine l v).lineClk = if l = .clk then v else a.lineClk := by
  cases l <;> rfl

theorem Arch.setLine_lineDio (l : Line) (v : Bool) (a : Arch) :
    (a.setLine l v).lineDio = if l = .dio then v else a.lineDio := by
  cases l <;> rfl

@[simp] theorem emitStep_trace (e : Event) (rest : List Event) (post : Arch) (s : State) :
    (emitStep e rest post s).trace = s.trace ++ [e] := by
  cases rest <;> rfl

@[simp] theorem emitStep_ports (e : Event) (rest : List Event) (post : Arch) (s : State) :
    (emitStep e rest post s).ports = s.ports := by
  cases rest <;> rfl

@[simp] theorem emitStep_future (e : Event) (rest : List Event) (post : Arch) (s : State) :
    (emitStep e rest post s).future = s.future := by
  cases rest <;> rfl

theorem emitStep_lineClk (e : Event) (rest : List Event) (post : Arch) (s : State) :
    (emitStep e rest post s).arch.lineClk = if e.line = .clk then e.level else s.arch.lineClk := by
  cases rest <;> exact Arch.setLine_lineClk ..

theorem emitStep_lineDio (e : Event) (rest : List Event) (post : Arch) (s : State) :
    (emitStep e rest post s).arch.lineDio = if e.line = .dio then e.level else s.arch.lineDio := by
  cases rest <;> exact Arch.setLine_lineDio ..

/-- An emission reads no input port. -/
theorem emitStep_withPorts (e : Event) (rest : List Event) (post : Arch) (s : State) (q : Ports) :
    emitStep e rest post { s with ports := q } = { emitStep e rest post s with ports := q } := by
  cases rest <;> rfl

/-- With no inputs to come the ports hold (log entry 4). -/
theorem advancePorts_of_future_nil {s : State} (h : s.future = []) : advancePorts s = s := by
  simp [advancePorts, h]

/-- A line write leaves every register but the lines (10_state R22). -/
theorem Arch.setLine_eq_keepLines (l : Line) (v : Bool) (a : Arch) :
    a.setLine l v = (a.setLine l v).keepLines a := by
  cases l <;> rfl

/-! ### Acceptance: the registers wait for the end of the trace -/

/-- Every frame emits, so no operation that ends with a frame has an empty trace (41_framed_commands R95). -/
theorem frame_trace_ne_nil (bytes : List Byte) (c : Copy) : (frame bytes c).trace ≠ [] := by
  simp [frame_eq, Copy.trace, frameTrace_cons]

theorem launched_busy {s : State} {trace : List Event} (h : trace ≠ []) (regs : Arch) :
    ∃ e rest post, launched s trace regs = { s with ready := false, seq := .busy e rest post } := by
  obtain ⟨e, rest, -, hl⟩ := launched_of_ne_nil (s := s) h regs
  exact ⟨e, rest, regs, hl⟩

theorem launch_next_busy {op : Copy → Copy} {s t : State} (h : launch op s = .next t)
    (hop : (op (copyOf s)).trace ≠ []) : ∃ e rest post, t = { s with ready := false, seq := .busy e rest post } := by
  rw [launch, accept_of_trace hop] at h
  cases h
  exact launched_busy hop _

theorem launchWrapping_eq_next {op : Copy → Copy} {s t : State} (h : launchWrapping op s = .next t) :
    posCntLegal s.arch.posCnt = true ∧ launch op s = .next t := by
  obtain ⟨hp, hl⟩ | ⟨-, hl⟩ := launchWrapping_cases op s
  · exact ⟨hp, hl ▸ h⟩
  · rw [hl] at h
    cases h

theorem launchWrapping_of_illegal {s : State} (h : posCntLegal s.arch.posCnt = false) (op : Copy → Copy) :
    launchWrapping op s = .fault .posCountRange := by
  simp [launchWrapping, h]

/-- A host command on a legal position count starts its trace, its registers pending (10_state R31). -/
theorem exec_host_busy {i : Instr} {s : State} (hi : i.isHost = true) (h : posCntLegal s.arch.posCnt = true) :
    ∃ e rest, framesTrace (commandFrames i s.ports.cfgInitIntensity s.arch) = e :: rest ∧
      exec i s = .next { s with
        ready := false, seq := .busy e rest (commandPost i s.ports.cfgInitIntensity s.arch) } := by
  obtain ⟨e, rest, ht, hl⟩ := launched_of_ne_nil (s := s)
    (framesTrace_ne_nil (commandFrames_ne_nil (cfg := s.ports.cfgInitIntensity) hi h)) _
  exact ⟨e, rest, ht, by rw [exec_host_eq hi h, hl]⟩

theorem exec_host_next_busy {i : Instr} {s t : State} (h : exec i s = .next t) (hi : i.isHost = true)
    (hp : posCntLegal s.arch.posCnt = true) : ∃ e rest post, t = { s with ready := false, seq := .busy e rest post } := by
  rw [exec_host_eq hi hp] at h
  cases h
  exact launched_busy (framesTrace_ne_nil (commandFrames_ne_nil hi hp)) _

/-- INIT sends frames on every state: it sets POSCNT itself (42_display_ops R107). -/
theorem commandFrames_init_ne_nil (count cfg : Operand) (a : Arch) : commandFrames (.init count) cfg a ≠ [] :=
  commandFrames_ne_nil (i := .init count) (a := { a with posCnt := 1 }) rfl (by decide : posCntLegal 1 = true)

/-- Every instruction that is accepted, of either encoding and on any registers, starts a trace: nothing but READY and
SEQ changes (10_state R31). -/
theorem exec_next_busy {i : Instr} {s t : State} (h : exec i s = .next t) :
    ∃ e rest post, t = { s with ready := false, seq := .busy e rest post } := by
  cases i with
  | init count =>
    rw [exec_init_eq] at h
    cases h
    exact launched_busy (framesTrace_ne_nil (commandFrames_init_ne_nil count _ s.arch)) _
  | intensity level =>
    refine launch_next_busy h ?_
    unfold setIntensity
    split
    · exact frame_trace_ne_nil _ _
    · exact frame_trace_ne_nil _ _
  | showdig _ _ | shownum _ | showhex _ | showdp _ _ | clear =>
    exact exec_host_next_busy h rfl (launchWrapping_eq_next h).1
  | on | off | dataCmd | dispCtrl _ => exact launch_next_busy h (frame_trace_ne_nil _ _)
  | addrCmd address =>
    refine launch_next_busy (launchWrapping_eq_next h).2 ?_
    simp [start_eq, writeByte_eq, startTrace]
  | segData code =>
    refine launch_next_busy (op := fun c => writeByte code c |> stop) h ?_
    simp [writeByte_eq, stop_eq, stopTrace]

/-- Accepting a word writes no line, and no register but ILL (10_state R31, 60_exceptions R136). -/
theorem acceptWord_next {w : CommandWord} {s t : State} (h : acceptWord w s = .next t) :
    t.trace = s.trace ∧ t.arch.lineClk = s.arch.lineClk ∧ t.arch.lineDio = s.arch.lineDio := by
  obtain ⟨i, -, hw⟩ | ⟨why, -, hw⟩ := acceptWord_cases w s
  · obtain ⟨e, rest, post, rfl⟩ := exec_next_busy (hw ▸ h)
    exact ⟨rfl, rfl, rfl⟩
  · cases hw ▸ h
    exact ⟨rfl, rfl, rfl⟩

theorem acceptWire_next {b : WireByte} {s t : State} (h : acceptWire b s = .next t) :
    ∃ e rest post, t = { s with ready := false, seq := .busy e rest post } := by
  unfold acceptWire at h
  split at h
  · exact exec_next_busy h
  · cases h

/-! ### The invariant, kept by each case of the step -/

/-- The invariant does not speak of the inputs. -/
@[simp] theorem inv_advancePorts {s : State} : Inv (advancePorts s) ↔ Inv s := by
  simp [Inv]

/-- What the invariant says in a known SEQ value: `SeqConsistent` at that value. -/
theorem Inv.seqConsistent {s : State} {q : Seq} (h : Inv s) (hs : s.seq = q) : SeqConsistent s.arch q :=
  hs ▸ h.2.2

theorem Arch.setLine_legal {a : Arch} (h : a.Legal) (l : Line) (v : Bool) : (a.setLine l v).Legal := by
  simpa [Arch.Legal] using h

theorem Arch.keepLines_legal {post : Arch} (h : post.Legal) (a : Arch) : (a.keepLines post).Legal := h

/-- The registers of a reset are legal and the bus is idle (70_reset_and_hazards R150). -/
theorem inv_resetStep (s : State) : Inv (resetStep s) :=
  ⟨⟨(by decide : posCntLegal 4 = true), rfl, fun _ _ => rfl⟩, by simp, rfl, rfl⟩

theorem inv_raiseIllegalCommand {s : State} (hl : s.arch.Legal) (hb : s.arch.LinesHigh) :
    Inv (raiseIllegalCommand s) :=
  ⟨hl, by simp, hb⟩

/-- A host command leaves registers to commit that are legal and agree with the lines its trace leaves, from any
levels of the lines (10_state R32, 41_framed_commands R102). -/
theorem inv_of_exec_host {i : Instr} {s t : State} (hi : i.isHost = true) (hl : s.arch.Legal)
    (h : exec i s = .next t) : Inv t := by
  have hne := commandFrames_ne_nil (cfg := s.ports.cfgInitIntensity) hi hl.1
  obtain ⟨e, rest, ht, hx⟩ := exec_host_busy hi hl.1
  have hlines := s.arch.afterTrace_framesTrace hne
  rw [ht] at hlines
  cases hx ▸ h
  exact ⟨hl, by simp, commandPost_legal hi _ hl, ⟨rfl, rfl⟩, commandPost_ill ..,
    congrArg Arch.lineClk hlines, congrArg Arch.lineDio hlines⟩

theorem inv_of_acceptWord {w : CommandWord} {s t : State} (hl : s.arch.Legal) (hb : s.arch.LinesHigh)
    (h : acceptWord w s = .next t) : Inv t := by
  obtain ⟨i, hi, hw⟩ | ⟨why, -, hw⟩ := acceptWord_cases w s
  · exact inv_of_exec_host (isHost_of_decodeHost hi) hl (hw ▸ h)
  · cases hw ▸ h
    exact inv_raiseIllegalCommand hl hb

/-- An emission moves one event from the trace to the lines; the last one finds them where the pending registers have
them (10_state R32). -/
theorem inv_emitStep {s : State} {e : Event} {rest : List Event} {post : Arch} (h : Inv s)
    (hs : s.seq = .busy e rest post) : Inv (emitStep e rest post s) := by
  obtain ⟨hpl, ⟨hpc, hpd⟩, hill, hclk, hdio⟩ := h.seqConsistent hs
  obtain ⟨hl, hr, -⟩ := h
  rw [hs] at hr
  have hclk' : levelAfter .clk (s.arch.setLine e.line e.level).lineClk rest = post.lineClk := by
    rw [setLine_eq_afterTrace]; exact hclk
  have hdio' : levelAfter .dio (s.arch.setLine e.line e.level).lineDio rest = post.lineDio := by
    rw [setLine_eq_afterTrace]; exact hdio
  cases rest with
  | nil => exact ⟨Arch.keepLines_legal hpl _, by simp [emitStep_last], hclk'.trans hpc, hdio'.trans hpd⟩
  | cons e' rest' =>
    refine ⟨Arch.setLine_legal hl _ _, ?_, hpl, ⟨hpc, hpd⟩, ?_, hclk', hdio'⟩
    · simpa [emitStep_more] using hr
    · simpa [emitStep_more] using hill

/-- Settles O56: each case of the step keeps the invariant. -/
theorem everyStepKeepsTheInvariant : Obligations.EveryStepKeepsTheInvariant := by
  intro s t hinv hstep
  obtain ⟨u, rfl, hcase⟩ := step_cases hstep
  rw [inv_advancePorts]
  have hl : s.arch.Legal := hinv.1
  obtain ⟨-, rfl⟩ | ⟨-, hs, ha⟩ | ⟨-, e, rest, post, hs, rfl⟩ | ⟨-, hs, -, ha⟩ | ⟨-, -, -, rfl⟩ | ⟨-, b, hs, -⟩ := hcase
  · exact inv_resetStep s
  · exact inv_of_acceptWord hl (hinv.seqConsistent hs) ha
  · exact inv_emitStep hinv hs
  · exact inv_of_acceptWord hl (hinv.seqConsistent hs) ha
  · exact hinv
  · exact (hinv.seqConsistent hs).elim

/-! ### The control byte and the power state -/

/-- CtrlByte's bits, one by one: BRIGHT's, over bit 7 and DISP_ON at bit 3 (10_state R27). -/
theorem ctrlByte_getLsbD (a : Arch) {k : Nat} (hk : k < 8) :
    (ctrlByte a).getLsbD k = (decide (k = 7) || (decide (k = 3) && a.dispOn) || a.bright.getLsbD k) := by
  have hbase : ∀ k < 8, cmdCtrlBase.getLsbD k = decide (k = 7) := by decide
  have hon : ∀ k < 8, onValue.getLsbD k = decide (k = 3) := by decide
  cases h : a.dispOn <;> simp [ctrlByte, h, hbase k hk, hon k hk]

/-- Settles O11: the control byte bit by bit, and its value while BRIGHT fits below bit 3. -/
theorem controlByteFields : Obligations.ControlByteFields := by
  intro a
  refine ⟨by rw [ctrlByte_getLsbD a (by decide)]; rfl, fun hb => ?_, fun k hk => ?_⟩
  · have hor (n : Nat) : 2 ^ 3 * n ||| a.bright.toNat = 2 ^ 3 * n + a.bright.toNat :=
      (Nat.two_pow_add_eq_or_of_lt (by omega) n).symm
    cases h : a.dispOn
    · simpa [ctrlByte, h, cmdCtrlBase] using hor 16
    · simpa [ctrlByte, h, cmdCtrlBase, onValue] using hor 17
  · have h7 : k ≠ 7 := by omega
    simp [ctrlByte_getLsbD a (by omega : k < 8), h7, Bool.or_comm]

/-- Settles O31: the registers each host command leaves, read as a power state (10_state R37). -/
theorem powerStateTransitions : Obligations.PowerStateTransitions := by
  intro i s hi hp
  obtain ⟨e, rest, -, hx⟩ := exec_host_busy hi hp
  refine ⟨e, rest, _, hx, ?_⟩
  cases i with
  | intensity level =>
    by_cases hv : level.toInt < 1
    · simp [commandPost, commandRegs, power, sint32, hv]
    · simp [commandPost, commandRegs, power, sint32, hv, storedBrightness, brightMaxExt]
  | init _ | on => rfl
  | off | showdig _ _ | shownum _ | showhex _ | showdp _ _ | clear => exact ⟨rfl, rfl⟩
  | dataCmd | addrCmd _ | dispCtrl _ | segData _ => cases hi

/-! ### What one step emits and changes -/

/-- Settles O48: the two cases of an emission. -/
theorem busyStepEmitsOneEvent : Obligations.BusyStepEmitsOneEvent := by
  intro s e rest post hq hs
  refine ⟨_, step_of_busy hq hs, by simp, by simp [emitStep_lineClk], by simp [emitStep_lineDio], ?_, ?_⟩
  · rintro rfl
    rw [advancePorts_arch, advancePorts_ready, advancePorts_seq, emitStep_last]
    exact ⟨rfl, rfl, rfl⟩
  · rintro e' rest' rfl
    rw [advancePorts_arch, advancePorts_ready, advancePorts_seq, emitStep_more]
    exact ⟨rfl, rfl, Arch.setLine_eq_keepLines ..⟩

/-- Settles O49: only an emission writes a line. -/
theorem atMostOneLineWritePerStep : Obligations.AtMostOneLineWritePerStep := by
  intro s t hstep
  obtain ⟨u, rfl, hcase⟩ := step_cases hstep
  simp only [advancePorts_arch, advancePorts_trace]
  obtain ⟨hr, rfl⟩ | ⟨-, -, ha⟩ | ⟨-, e, rest, post, -, rfl⟩ | ⟨-, -, -, ha⟩ | ⟨-, -, -, rfl⟩ | ⟨-, b, -, ha⟩ := hcase
  · exact .inl ⟨rfl, fun hq => by simp [hr] at hq⟩
  · exact .inl ((acceptWord_next ha).imp_right fun h _ => h)
  · exact .inr ⟨e, emitStep_trace .., emitStep_lineClk .., emitStep_lineDio ..⟩
  · exact .inl ((acceptWord_next ha).imp_right fun h _ => h)
  · exact .inl ⟨rfl, fun _ => ⟨rfl, rfl⟩⟩
  · obtain ⟨e, rest, post, rfl⟩ := acceptWire_next ha
    exact .inl ⟨rfl, fun _ => ⟨rfl, rfl⟩⟩

/-- Settles O50: an emission reads no port, so it commutes with replacing them. -/
theorem busyStepIgnoresTheHost : Obligations.BusyStepIgnoresTheHost := by
  intro s e rest post q hs hr hq
  refine ⟨_, _, step_of_busy hr hs, step_of_busy hq hs, ?_⟩
  rw [emitStep_withPorts]
  refine ⟨by simp, by simp, by simp, by simp, fun hf => ?_⟩
  rw [advancePorts_of_future_nil (by simpa using hf), advancePorts_of_future_nil (by simpa using hf)]
  exact ⟨rfl, emitStep_ports ..⟩

/-! ### How a trace drains -/

/-- While events remain, a run emits them in order and moves only the lines (10_state R31). -/
theorem run_busy_prefix {s : State} {e : Event} {rest : List Event} {post : Arch} (hs : s.seq = .busy e rest post)
    (hr : s.ready = false) (hq : QuietFor (rest.length + 1) s) {j : Nat} (hj : j ≤ rest.length) :
    ∃ u : State, Host.Core.run Sys2Proof.core j s = .next u ∧ u.ready = false ∧
      u.trace = s.trace ++ (e :: rest).take j ∧ u.arch = s.arch.afterTrace ((e :: rest).take j) := by
  induction rest generalizing s e j with
  | nil =>
    obtain rfl : j = 0 := by simpa using hj
    exact ⟨s, rfl, hr, by simp, rfl⟩
  | cons e' rest ih =>
    cases j with
    | zero => exact ⟨s, rfl, hr, by simp, rfl⟩
    | succ j =>
      obtain ⟨u, hrun, hready, htrace, harch⟩ := ih (s := advancePorts (emitStep e (e' :: rest) post s)) (e := e')
        (j := j) (by simp [emitStep_more]) (by simpa [emitStep_more] using hr) (hq.advance (by simp) (by simp))
        (by simpa using hj)
      refine ⟨u, ?_, hready, by simp [htrace], ?_⟩
      · rw [run_succ_of_step (step_of_busy hq.1 hs), hrun]
      · rw [harch, advancePorts_arch, emitStep_more, setLine_eq_afterTrace]
        rfl

/-- The whole run of a trace: every event emitted, the pending registers committed, the lines kept (10_state R31). -/
theorem run_busy_commit {s : State} {e : Event} {rest : List Event} {post : Arch} (hs : s.seq = .busy e rest post)
    (hq : QuietFor (rest.length + 1) s) :
    ∃ u : State, Host.Core.run Sys2Proof.core (rest.length + 1) s = .next u ∧ u.ready = true ∧ u.seq = .idle ∧
      u.trace = s.trace ++ e :: rest ∧ u.arch = (s.arch.afterTrace (e :: rest)).keepLines post := by
  induction rest generalizing s e with
  | nil =>
    refine ⟨advancePorts (emitStep e [] post s), ?_, ?_⟩
    · rw [run_succ_of_step (step_of_busy hq.1 hs)]
      rfl
    · simp [emitStep_last, setLine_eq_afterTrace]
  | cons e' rest ih =>
    obtain ⟨u, hrun, hready, hseq, htrace, harch⟩ := ih (s := advancePorts (emitStep e (e' :: rest) post s)) (e := e')
      (by simp [emitStep_more]) (hq.advance (by simp) (by simp))
    refine ⟨u, ?_, hready, hseq, by simp [htrace], ?_⟩
    · rw [List.length_cons, run_succ_of_step (step_of_busy hq.1 hs), hrun]
    · rw [harch, advancePorts_arch, emitStep_more, setLine_eq_afterTrace]
      rfl

/-- Settles O52: the run up to the last event, and the step of the last event. -/
theorem traceDrainsInOrderThenCommits : Obligations.TraceDrainsInOrderThenCommits :=
  fun _ _ _ _ hs hr hq => ⟨fun _ hj => run_busy_prefix hs hr hq hj, run_busy_commit hs hq⟩

/-! ### ILL -/

/-- Under the invariant an emission leaves ILL, the pending registers holding the present one (10_state R35). -/
theorem emitStep_ill {s : State} {e : Event} {rest : List Event} {post : Arch} (h : Inv s)
    (hs : s.seq = .busy e rest post) : (emitStep e rest post s).arch.ill = s.arch.ill := by
  obtain ⟨-, -, hill, -⟩ := h.seqConsistent hs
  cases rest with
  | nil => exact hill
  | cons e' rest' => simp [emitStep_more]

/-- Settles O58: the accepted illegal word is the only case of the step that does not leave ILL as it was. -/
theorem illIsSticky : Obligations.IllIsSticky := by
  intro s t hinv hq hstep
  obtain ⟨u, rfl, hcase⟩ := step_cases hstep
  rw [advancePorts_arch]
  have keep (h : u.arch.ill = s.arch.ill) (P : Prop) :
      (s.arch.ill = true → u.arch.ill = true) ∧ (s.arch.ill = false → u.arch.ill = true → P) := by
    rw [h]
    exact ⟨id, fun hf ht => by simp [hf] at ht⟩
  obtain ⟨hr, -⟩ | ⟨-, hs, ha⟩ | ⟨-, e, rest, post, hs, rfl⟩ | ⟨-, hs, hv, ha⟩ | ⟨-, -, -, rfl⟩ | ⟨-, b, hs, -⟩ := hcase
  · simp [hr] at hq
  · rw [acceptWord_constructWord] at ha
    obtain ⟨e, rest, post, rfl⟩ := exec_next_busy ha
    exact keep rfl _
  · exact keep (emitStep_ill hinv hs) _
  · obtain ⟨i, -, hw⟩ | ⟨why, hd, hw⟩ := acceptWord_cases s.ports.cmdWord s
    · obtain ⟨e, rest, post, rfl⟩ := exec_next_busy (hw ▸ ha)
      exact keep rfl _
    · cases hw ▸ ha
      obtain ⟨hvalid, hready⟩ := Bool.and_eq_true_iff.1 hv
      exact ⟨fun _ => rfl, fun _ _ => ⟨hs, hready, hvalid, why, hd⟩⟩
  · exact keep rfl _
  · exact (hinv.seqConsistent hs).elim

/-! ### The cases of the step that need no invariant -/

/-- Settles O29: each of the six is run through `launchWrapping`. -/
theorem positionCommandsStopOnIllegalPosCount : Obligations.PositionCommandsStopOnIllegalPosCount :=
  fun _ _ _ _ _ h =>
    ⟨launchWrapping_of_illegal h _, launchWrapping_of_illegal h _, launchWrapping_of_illegal h _,
      launchWrapping_of_illegal h _, launchWrapping_of_illegal h _, launchWrapping_of_illegal h _⟩

/-- Settles O45: the three SEQ values from which a step runs an instruction. -/
theorem stepRunsTheDecodedInstruction : Obligations.StepRunsTheDecodedInstruction := by
  refine ⟨fun s i hq hs hr hv hd => ?_, fun s i b hq hs hd => ?_, fun s hq hs => ?_⟩
  · simp [step_of_idle hq hs, idleStep, hv, hr, acceptWord, hd]
  · simp [step_of_transport hq hs, acceptWire, hd]
  · rw [step_of_construct hq hs, acceptWord_constructWord]

/-- Settles O47: the idle case with nothing offered. -/
theorem idleStepHolds : Obligations.IdleStepHolds := by
  intro s hq hs hv
  have hstep : step s = .next (advancePorts s) := by simp [step_of_idle hq hs, idleStep, hv]
  exact ⟨_, hstep, by simp, by simp, by simp [hs], by simp⟩

end Sys2Proof.Machine
end

section
/-! PROOFS. SEGBUF and the wire of 20_memory: the address bytes, the segment table, the mirror law and the repeated
command. -/

namespace Sys2Proof.Machine

/-! ### Address bytes and segment codes -/

/-- The address base and an address below 16 share no bit, so their OR is their sum. -/
theorem addressOr_toNat {k : Nat} (hk : k < 16) : (cmdAddrBase ||| BitVec.ofNat 8 k).toNat = 0xC0 + k := by
  have h := Nat.two_pow_add_eq_or_of_lt (i := 4) (by omega : k < 2 ^ 4) 12
  have hmod : k % 256 = k := by omega
  simpa [cmdAddrBase, hmod] using h.symm

/-- Chip addresses below 16 have different address bytes. -/
theorem addressOr_inj {j k : Nat} (hj : j < 16) (hk : k < 16) :
    cmdAddrBase ||| BitVec.ofNat 8 j = cmdAddrBase ||| BitVec.ofNat 8 k ↔ j = k := by
  rw [← BitVec.toNat_inj, addressOr_toNat hj, addressOr_toNat hk]
  omega

theorem addrByte_toNat {n : BitVec 3} (h : posCntLegal n = true) (p : Int) :
    (addrByte n p).toNat = 0xC0 + wrap n p := by
  have := wrap_lt h p
  exact addressOr_toNat (by omega)

/-- On a legal count, `wrap` is the Euclidean remainder itself. -/
theorem wrap_cast {n : BitVec 3} (h : posCntLegal n = true) (p : Int) :
    (wrap n p : Int) = p % (n.toNat : Int) := by
  have hn := ((posCntLegal_iff n).1 h).1
  exact Int.toNat_of_nonneg (Int.emod_nonneg _ (by omega))

/-- Settles O8: the byte is the base plus the wrapped position, which is below POSCNT. -/
theorem addressBytesStayInRange : Obligations.AddressBytesStayInRange := by
  intro n p h
  have hb := addrByte_toNat h p
  have hw := wrap_lt h p
  have hlt := n.isLt
  refine ⟨?_, ?_, by omega, by omega⟩
  · rw [hb, ← wrap_cast h]
    rfl
  · apply BitVec.eq_of_toNat_eq
    rw [BitVec.extractLsb'_toNat, hb, Nat.shiftRight_eq_div_pow]
    simp only [BitVec.toNat_ofNat]
    omega

/-- No entry of the segment table has the decimal point (10_state R33). -/
theorem segTable_getLsbD_seven : ∀ k : Fin 16, segTable[k].getLsbD 7 = false := by decide

/-- The remainder modulo 16 of a two's complement value is its low nibble. -/
theorem sint32_emod_sixteen (v : Operand) : (sint32 v % 16).toNat = (v.extractLsb' 0 4).toNat := by
  simp only [sint32, BitVec.toInt_eq_toNat_cond, BitVec.extractLsb'_toNat]
  split <;> omega

/-- Settles O9: the index is the low nibble, and every entry has bit 7 = 0. -/
theorem segmentTableIndexIsTheLowNibble : Obligations.SegmentTableIndexIsTheLowNibble := by
  intro v
  constructor
  · simp only [segCode, sint32_emod_sixteen]
  · exact segTable_getLsbD_seven ⟨(sint32 v % 16).toNat, by omega⟩

/-! ### The bus monitor reads back what was sent (40_bus_primitives R93) -/

/-- The monitor samples each bit once, from any levels inside an open frame. -/
theorem monitor_bitTrace (c d v : Bool) (bits : List Bool) (fs : List (List Byte)) :
    (bitTrace v).foldl Monitor.event ⟨c, d, some bits, fs⟩ = ⟨true, v, some (bits ++ [v]), fs⟩ := by
  simp [bitTrace, Monitor.event]

/-- The eight bits of a byte are sampled; the trailing strobe adds none (40_bus_primitives C3). -/
theorem monitor_byteTrace (c d : Bool) (b : Byte) (bits : List Bool) (fs : List (List Byte)) :
    (byteTrace b).foldl Monitor.event ⟨c, d, some bits, fs⟩ =
      ⟨false, b.getLsbD 7, some (bits ++ lsbFirst b), fs⟩ := by
  simp [byteTrace, lsbFirst, List.range, List.range.loop, monitor_bitTrace, List.foldl_append]
  simp [Monitor.event]

theorem monitor_bytes (d : Bool) (bytes : List Byte) (bits : List Bool) (fs : List (List Byte)) :
    ∃ d', (bytes.flatMap byteTrace).foldl Monitor.event ⟨false, d, some bits, fs⟩ =
      ⟨false, d', some (bits ++ bytes.flatMap lsbFirst), fs⟩ := by
  induction bytes generalizing d bits with
  | nil => exact ⟨d, by simp⟩
  | cons b bytes ih =>
    obtain ⟨d', h⟩ := ih (b.getLsbD 7) (bits ++ lsbFirst b)
    exact ⟨d', by
      rw [List.flatMap_cons, List.foldl_append, monitor_byteTrace, h, List.flatMap_cons, List.append_assoc]⟩

/-- A byte is its eight bits, least significant first (20_memory R50): checked over the 256 bytes. -/
theorem byteOfBits_lsbFirst (b : Byte) : byteOfBits (lsbFirst b) = b := by
  revert b
  decide

theorem bytesOfBits_flatMap_lsbFirst (bytes : List Byte) : bytesOfBits (bytes.flatMap lsbFirst) = bytes := by
  induction bytes with
  | nil => rfl
  | cons b bytes ih =>
    have h : bytesOfBits (lsbFirst b ++ bytes.flatMap lsbFirst) =
      byteOfBits (lsbFirst b) :: bytesOfBits (bytes.flatMap lsbFirst) := rfl
    rw [List.flatMap_cons, h, byteOfBits_lsbFirst, ih]

/-- Stop samples one bit more, which the monitor drops as it closes the frame. -/
theorem monitor_stopTrace (d : Bool) (bits : List Bool) (fs : List (List Byte)) :
    stopTrace.foldl Monitor.event ⟨false, d, some bits, fs⟩ = ⟨true, true, none, fs ++ [bytesOfBits bits]⟩ := by
  simp [stopTrace, Monitor.event]

/-- From an idle bus back to an idle bus, with one frame more. -/
theorem monitor_frameTrace (bytes : List Byte) (fs : List (List Byte)) :
    (frameTrace bytes).foldl Monitor.event ⟨true, true, none, fs⟩ = ⟨true, true, none, fs ++ [bytes]⟩ := by
  have hstart : startTrace.foldl Monitor.event ⟨true, true, none, fs⟩ = ⟨false, false, some [], fs⟩ := rfl
  obtain ⟨d', hbytes⟩ := monitor_bytes false bytes [] fs
  rw [frameTrace, List.foldl_append, List.foldl_append, hstart, hbytes, monitor_stopTrace, List.nil_append,
    bytesOfBits_flatMap_lsbFirst]

theorem monitor_framesTrace (frames fs : List (List Byte)) :
    (framesTrace frames).foldl Monitor.event ⟨true, true, none, fs⟩ = ⟨true, true, none, fs ++ frames⟩ := by
  induction frames generalizing fs with
  | nil => simp
  | cons f frames ih => rw [framesTrace_cons, List.foldl_append, monitor_frameTrace, ih, List.append_assoc]; rfl

/-- On an idle bus the monitor reads back exactly the frames sent. -/
theorem monitorFrames_framesTrace (frames : List (List Byte)) : monitorFrames (framesTrace frames) = frames :=
  congrArg Monitor.frames (monitor_framesTrace frames [])

/-! ### What a listener on the wire holds (20_memory R64) -/

theorem lastWritten_cons (p : Nat) (f : List Byte) (fs : List (List Byte)) :
    lastWritten p (f :: fs) = (lastWritten p fs).or (lastWritten p [f]) := by
  cases h : lastWritten p fs <;> simp only [lastWritten, h, Option.or]

/-- The last write among frames sent one after the other is the later part's, if it has one. -/
theorem lastWritten_append (p : Nat) (fs gs : List (List Byte)) :
    lastWritten p (fs ++ gs) = (lastWritten p gs).or (lastWritten p fs) := by
  induction fs with
  | nil => simp [lastWritten]
  | cons f fs ih => rw [List.cons_append, lastWritten_cons, ih, Option.or_assoc, ← lastWritten_cons]

/-- An addressed write reaches its wrapped position and no other. -/
theorem lastWritten_addressedFrames {a : Arch} (h : posCntLegal a.posCnt = true) {p : Nat}
    (hp : p < a.posCnt.toNat) (q : Int) (d : Byte) :
    lastWritten p (addressedFrames a q d) = if p = wrap a.posCnt q then some d else none := by
  have hw := wrap_lt h q
  have hlt := a.posCnt.isLt
  have haddr : addrByte a.posCnt q = cmdAddrBase ||| BitVec.ofNat 8 p ↔ p = wrap a.posCnt q := by
    rw [addrByte, addressOr_inj (by omega) (by omega), eq_comm]
  simp only [addressedFrames, lastWritten, dataFrame, ctrlFrame, haddr]
  by_cases hpw : p = wrap a.posCnt q <;> simp [hpw]

/-- Mirrored writes leave in SEGBUF what a listener to their frames would hold. -/
theorem memRead_mirrorWrites {a : Arch} (h : posCntLegal a.posCnt = true) {p : Nat} (hp : p < a.posCnt.toNat)
    (ws : List (Int × Byte)) {m : Memory} (hm : Memory.wf m = true) :
    memRead (mirrorWrites a.posCnt ws m) p =
      (lastWritten p (ws.flatMap fun w => addressedFrames a w.1 w.2)).getD (memRead m p) := by
  induction ws generalizing m with
  | nil => rfl
  | cons w ws ih =>
    have hrest := ih (memWrite_wf hm (wrap_lt_maxPos h w.1) w.2)
    rw [memRead_memWrite hm] at hrest
    rw [List.flatMap_cons, lastWritten_append, lastWritten_addressedFrames h hp]
    refine Eq.trans hrest ?_
    cases lastWritten p (ws.flatMap fun w => addressedFrames a w.1 w.2) with
    | some d => rfl
    | none => by_cases hpw : p = wrap a.posCnt w.1 <;> simp [hpw]

/-- Mirrored writes of 0x00 leave 0x00 where one of them wraps to. -/
theorem memRead_mirrorWrites_zeros {n : BitVec 3} (hn : posCntLegal n = true) {p : Nat} {ws : List (Int × Byte)}
    (hz : ∀ w ∈ ws, w.2 = 0x00#8) {m : Memory} (hm : Memory.wf m = true)
    (hp : memRead m p = 0x00#8 ∨ ∃ w ∈ ws, p = wrap n w.1) : memRead (mirrorWrites n ws m) p = 0x00#8 := by
  induction ws generalizing m with
  | nil => simpa [mirrorWrites] using hp
  | cons w ws ih =>
    obtain ⟨hw, hws⟩ := List.forall_mem_cons.1 hz
    refine ih hws (memWrite_wf hm (wrap_lt_maxPos hn w.1) w.2) ?_
    rw [memRead_memWrite hm, hw]
    by_cases hpw : p = wrap n w.1
    · exact .inl (if_pos hpw)
    · simpa [hpw] using hp

/-- Clear's writes leave 0x00 at every position below the count (42_display_ops R127). -/
theorem memRead_mirrorWrites_zeroWrites {n : BitVec 3} (hn : posCntLegal n = true) {p : Nat} (hp : p < n.toNat)
    {m : Memory} (hm : Memory.wf m = true) : memRead (mirrorWrites n (zeroWrites n.toNat) m) p = 0x00#8 := by
  refine memRead_mirrorWrites_zeros hn (by simp [zeroWrites]) hm (.inr ⟨(p, 0x00), ?_, (wrap_of_lt hp).symm⟩)
  simpa [zeroWrites] using hp

/-- The frames of the commands that write no digit reach no position (42_display_ops R128). -/
theorem lastWritten_commandFrames (p : Nat) (i : Instr) (cfg : Operand) (a : Arch) :
    lastWritten p (commandFrames i cfg a) =
      lastWritten p ((commandWrites i a).flatMap fun w => addressedFrames (commandRegs i cfg a) w.1 w.2) := by
  cases i <;> rfl

/-- SEGBUF after a command, read below the new count: the command's writes over the old buffer. INIT zeroes the buffer
first, and its writes reach every such position. -/
theorem memRead_commandPost {i : Instr} (cfg : Operand) {a : Arch} (h : a.Legal) {p : Nat}
    (hp : p < (commandRegs i cfg a).posCnt.toNat) :
    memRead (commandPost i cfg a).segBuf p =
      memRead (mirrorWrites (commandRegs i cfg a).posCnt (commandWrites i a) a.segBuf) p := by
  obtain ⟨-, hm, -⟩ := h
  cases i with
  | init count => exact (memRead_mirrorWrites_zeroWrites (posCount_legal _) hp hm).symm
  | showdig _ _ | shownum _ | showhex _ | showdp _ _ | clear | on | off
  | intensity _ | dataCmd | addrCmd _ | dispCtrl _ | segData _ => rfl

/-- Settles O38: the monitor reads the command's frames, and these are the writes that SEGBUF mirrors. -/
theorem mirrorLawOfEveryCommand : Obligations.MirrorLawOfEveryCommand := by
  intro i s hi hl
  obtain ⟨e, rest, ht, hx⟩ := exec_host_busy hi hl.1
  refine ⟨e, rest, _, hx, fun p hp => ?_⟩
  obtain ⟨hn, -, -⟩ := commandPost_legal hi s.ports.cfgInitIntensity hl
  rw [← ht, monitorFrames_framesTrace, lastWritten_commandFrames, memRead_commandPost _ hl hp]
  exact memRead_mirrorWrites hn hp _ hl.2.1

/-! ### A command repeated (20_memory R57) -/

/-- The same writes over again leave SEGBUF as it was after the first time. -/
theorem mirrorWrites_idem {a : Arch} (h : posCntLegal a.posCnt = true) (ws : List (Int × Byte)) {m : Memory}
    (hm : Memory.wf m = true) :
    mirrorWrites a.posCnt ws (mirrorWrites a.posCnt ws m) = mirrorWrites a.posCnt ws m := by
  have hm' := mirrorWrites_wf h hm ws
  refine memory_ext (mirrorWrites_wf h hm' ws) hm' fun p => ?_
  by_cases hp : p < a.posCnt.toNat
  · rw [memRead_mirrorWrites h hp ws hm', memRead_mirrorWrites h hp ws hm]
    cases lastWritten p (ws.flatMap fun w => addressedFrames a w.1 w.2) <;> rfl
  · refine memRead_mirrorWrites_of_notMem ws (fun w _ => ?_) _
    have := wrap_lt h w.1
    omega

/-- Setting or clearing the decimal point twice is doing it once (42_display_ops R123). -/
theorem withPoint_withPoint (v : Bool) (b : Byte) : withPoint v (withPoint v b) = withPoint v b := by
  cases v
  · exact BitVec.and_assoc .. |>.trans (congrArg (b &&& ·) BitVec.and_self)
  · exact BitVec.or_assoc .. |>.trans (congrArg (b ||| ·) BitVec.or_self)

/-- The registers a command sets before it sends anything are already so where it has run. -/
theorem commandRegs_commandPost (i : Instr) (cfg : Operand) (a : Arch) :
    commandRegs i cfg (commandPost i cfg a) = commandPost i cfg a := by
  cases i with
  | intensity level => by_cases hv : sint32 level < 1 <;> simp [commandPost, commandRegs, hv]
  | init _ | on | off | showdig _ _ | shownum _ | showhex _ | showdp _ _ | clear
  | dataCmd | addrCmd _ | dispCtrl _ | segData _ => rfl

/-- A command run again makes the same writes: SHOWDP alone reads SEGBUF, and it finds the byte it stored. -/
theorem commandWrites_commandPost (i : Instr) (cfg : Operand) {a : Arch} (h : a.Legal) :
    commandWrites i (commandPost i cfg a) = commandWrites i a := by
  cases i with
  | showdp position visible =>
    obtain ⟨-, hm, -⟩ := h
    simp [commandWrites, commandPost, commandRegs, mirrorWrites, memRead_memWrite hm, withPoint_withPoint]
  | init _ | intensity _ | showdig _ _ | shownum _ | showhex _ | clear | on | off
  | dataCmd | addrCmd _ | dispCtrl _ | segData _ => rfl

/-- A command run again sends the same frames. -/
theorem commandFrames_commandPost (i : Instr) (cfg : Operand) {a : Arch} (h : a.Legal) :
    commandFrames i cfg (commandPost i cfg a) = commandFrames i cfg a := by
  unfold commandFrames
  rw [commandRegs_commandPost, commandWrites_commandPost i cfg h]
  rfl

/-- A command run again leaves SEGBUF as it left it. -/
theorem commandPost_commandPost_segBuf (i : Instr) (cfg : Operand) {a : Arch} (h : a.Legal) :
    (commandPost i cfg (commandPost i cfg a)).segBuf = (commandPost i cfg a).segBuf := by
  have ⟨hn, hm, _⟩ := h
  cases i with
  | showdp position visible =>
    refine Eq.trans ?_ (mirrorWrites_idem hn (commandWrites (.showdp position visible) a) hm)
    exact congrArg (mirrorWrites _ · _) (commandWrites_commandPost _ cfg h)
  | showdig _ _ | shownum _ | showhex _ | clear => exact mirrorWrites_idem hn _ hm
  | init _ | intensity _ | on | off | dataCmd | addrCmd _ | dispCtrl _ | segData _ => rfl

/-- A command run again leaves the registers it left. -/
theorem commandPost_commandPost (i : Instr) (cfg : Operand) {a : Arch} (h : a.Legal) :
    commandPost i cfg (commandPost i cfg a) = commandPost i cfg a := by
  calc commandPost i cfg (commandPost i cfg a)
      = { commandRegs i cfg (commandPost i cfg a) with
          lineClk := true, lineDio := true, segBuf := (commandPost i cfg (commandPost i cfg a)).segBuf } := rfl
    _ = { commandPost i cfg a with lineClk := true, lineDio := true, segBuf := (commandPost i cfg a).segBuf } := by
        rw [commandRegs_commandPost, commandPost_commandPost_segBuf i cfg h]
    _ = commandPost i cfg a := rfl

/-- Settles O39: the writes and the registers of the second run are those of the first. -/
theorem repeatedCommandIsIdempotent : Obligations.RepeatedCommandIsIdempotent := by
  intro i s hi hl
  obtain ⟨e, rest, ht, hx⟩ := exec_host_busy hi hl.1
  refine ⟨e, rest, _, hx, ?_⟩
  obtain ⟨hn, -, -⟩ := commandPost_legal hi s.ports.cfgInitIntensity hl
  rw [exec_host_eq hi hn, commandFrames_commandPost _ _ hl, commandPost_commandPost _ _ hl, ht]
  rfl

end Sys2Proof.Machine
end

section
/-! PROOFS. The encoding of 30_encoding: the fields of a command word, decoding and encoding as each other's inverse, the
match and mask of every row, and the illegal words. -/

namespace Sys2Proof.Machine

/-! ### Words put together from fields -/

/-- A word is put together from the values of its fields (30_encoding R66). -/
theorem commandWord_eq_of_fields {w : CommandWord} {o : Byte} {a b : Operand} (ho : fieldOpc w = o)
    (ha : fieldA w = a) (hb : fieldB w = b) : commandWord o a b = w := by
  subst ho ha hb
  exact Laws.commandWord_fields w

/-- A word that meets a match and mask with OPC unmasked meets them field by field (30_encoding R69). -/
theorem fields_of_match {w : CommandWord} {o : Byte} {a b ma mb : Operand}
    (h : w &&& commandWord 0xFF ma mb = commandWord o a b) :
    fieldOpc w = o ∧ fieldA w &&& ma = a ∧ fieldB w &&& mb = b := by
  rw [← Laws.commandWord_fields w, Laws.MeetsRow.and_allOnes_row] at h
  refine ⟨?_, ?_, ?_⟩
  · simpa only [Laws.fieldOpc_commandWord] using congrArg fieldOpc h
  · simpa only [Laws.fieldA_commandWord] using congrArg fieldA h
  · simpa only [Laws.fieldB_commandWord] using congrArg fieldB h

/-- A byte is its two nibbles. -/
theorem nibbles_append (b : Byte) : b.extractLsb' 4 4 ++ b.extractLsb' 0 4 = b :=
  (BitVec.extractLsb'_append_extractLsb'_eq_extractLsb' rfl).trans BitVec.extractLsb'_eq_self

/-- A byte whose bit 7 is 1 is that bit over its bits 6:0. -/
theorem bit_seven_append {b : Byte} (h : b.getLsbD 7 = true) : 1#1 ++ b.extractLsb' 0 7 = b := by
  have hbit : b.extractLsb' 7 1 = 1#1 := by
    apply BitVec.eq_of_getLsbD_eq
    intro i hi
    have h0 : i = 0 := by omega
    simpa [h0] using h
  rw [← hbit]
  exact (BitVec.extractLsb'_append_extractLsb'_eq_extractLsb' rfl).trans BitVec.extractLsb'_eq_self

/-! ### The field `visible` of SHOWDP (30_encoding R67, decision D22) -/

theorem visibleField_toNat (visible : Bool) : (visibleField visible).toNat = visible.toNat := by
  cases visible <;> rfl

/-- Field B is the reserved bits 31:1 above `visible`. -/
theorem fieldB_toNat (w : CommandWord) :
    (fieldB w).toNat = 2 * (w.extractLsb' 1 31).toNat + (w.getLsbD 0).toNat := by
  simp only [fieldB, BitVec.extractLsb'_toNat, BitVec.getLsbD, Nat.toNat_testBit, Nat.shiftRight_eq_div_pow]
  omega

/-- The reserved bits of a SHOWDP word are zero when field B is 0 or 1. -/
theorem showdp_reserved_eq_zero_iff (w : CommandWord) : w.extractLsb' 1 31 = 0#31 ↔ (fieldB w).toNat < 2 := by
  have hB := fieldB_toNat w
  have hv := Bool.toNat_le (w.getLsbD 0)
  have h0 : (0#31).toNat = 0 := rfl
  rw [← BitVec.toNat_inj]
  omega

theorem fieldB_eq_visibleField {w : CommandWord} (h : w.extractLsb' 1 31 = 0#31) :
    fieldB w = visibleField (w.getLsbD 0) := by
  apply BitVec.eq_of_toNat_eq
  simp [fieldB_toNat, visibleField_toNat, h]

/-! ### Decode of encode -/

/-- The byte of an ADDR_CMD has 1100 over its address, which decides whether it decodes (30_encoding R78). -/
theorem decodeWire_addrCmd {address : BitVec 4} (h : address.toNat < Config.maxPos) :
    decodeWire ⟨.first, 0xC#4 ++ address⟩ = .ok (.addrCmd address) := by
  have hbase : BitVec.extractLsb' 4 4 (0xC#4 ++ address : Byte) = 0xC#4 := BitVec.extractLsb'_append_eq_left
  have haddr : BitVec.extractLsb' 0 4 (0xC#4 ++ address : Byte) = address := BitVec.extractLsb'_append_eq_right
  simp only [decodeWire, hbase, haddr, h, beq_self_eq_true, if_true]

/-- Bit 7 tells a DISP_CTRL byte from DATA_CMD (30_encoding R78). -/
theorem decodeWire_dispCtrl (low : BitVec 7) : decodeWire ⟨.only, 1#1 ++ low⟩ = .ok (.dispCtrl low) := by
  have hbit : (1#1 ++ low : Byte).getLsbD 7 = true := (BitVec.getLsbD_append ..).trans rfl
  have hlow : BitVec.extractLsb' 0 7 (1#1 ++ low : Byte) = low := BitVec.extractLsb'_append_eq_right
  have hdata : ((1#1 ++ low : Byte) == 0x40#8) = false := by
    refine beq_false_of_ne fun h => ?_
    rw [h] at hbit
    exact absurd hbit (by decide)
  simp only [decodeWire, hdata, hbit, hlow, Bool.false_eq_true, if_false, if_true]

/-- Settles O1: the fields of a code are the operands it was put together from. -/
theorem decodeOfEncodeIsTheInstruction : Obligations.DecodeOfEncodeIsTheInstruction := by
  intro i hi
  cases i with
  | addrCmd address => exact decodeWire_addrCmd (of_decide_eq_true hi)
  | dispCtrl low => exact decodeWire_dispCtrl low
  | dataCmd | segData _ => rfl
  | showdp position visible =>
    obtain ⟨hzero, hbit⟩ := Laws.showdp_word_low position visible
    simp only [encode, decode, decodeHost, ifReservedZero, Laws.fieldOpc_commandWord, Laws.fieldA_commandWord,
      hzero, hbit]
    rfl
  | init _ | intensity _ | showdig _ _ | shownum _ | showhex _ | clear | on | off =>
    simp [encode, decode, decodeHost, ifReservedZero, Laws.fieldOpc_commandWord, Laws.fieldA_commandWord,
      Laws.fieldB_commandWord]

/-! ### Encode of decode -/

/-- Every operand value of a host command is legal (30_encoding R73). -/
theorem wellFormed_of_isHost {i : Instr} (h : i.isHost = true) : i.WellFormed := by
  cases i with
  | dataCmd | addrCmd _ | dispCtrl _ | segData _ => cases h
  | init _ | intensity _ | showdig _ _ | shownum _ | showhex _ | showdp _ _ | clear | on | off => rfl

/-- No bit of a command word is ignored (30_encoding R70, R71). -/
theorem encode_of_decodeHost {w : CommandWord} {i : Instr} (h : decodeHost w = .ok i) : encode i = .host w := by
  unfold decodeHost at h
  split at h
  case h_3 ho =>
    cases h
    exact congrArg Code.host (commandWord_eq_of_fields (BitVec.eq_of_toNat_eq ho) rfl rfl)
  case h_10 => cases h
  case h_6 ho =>
    obtain ⟨hz, rfl⟩ := ifReservedZero_eq_ok.1 h
    exact congrArg Code.host
      (commandWord_eq_of_fields (BitVec.eq_of_toNat_eq ho) rfl (fieldB_eq_visibleField (eq_of_beq hz)))
  case h_7 ho | h_8 ho | h_9 ho =>
    obtain ⟨hz, rfl⟩ := ifReservedZero_eq_ok.1 h
    obtain ⟨ha, hb⟩ := Bool.and_eq_true_iff.1 hz
    exact congrArg Code.host
      (commandWord_eq_of_fields (BitVec.eq_of_toNat_eq ho) (eq_of_beq ha) (eq_of_beq hb))
  case h_1 ho | h_2 ho | h_4 ho | h_5 ho =>
    obtain ⟨hz, rfl⟩ := ifReservedZero_eq_ok.1 h
    exact congrArg Code.host (commandWord_eq_of_fields (BitVec.eq_of_toNat_eq ho) rfl (eq_of_beq hz))

/-- No bit of a wire byte in its place is ignored, and no address beyond 4 decodes (30_encoding R79, 20_memory R58). -/
theorem encode_of_decodeWire {b : WireByte} {i : Instr} (h : decodeWire b = .ok i) :
    encode i = .wire b ∧ i.WellFormed := by
  obtain ⟨pos, byte⟩ := b
  cases pos with
  | only =>
    simp only [decodeWire] at h
    split at h
    · next hdata =>
      cases h
      exact ⟨by rw [eq_of_beq hdata]; rfl, rfl⟩
    · split at h
      · next h7 =>
        cases h
        exact ⟨congrArg _ (congrArg _ (bit_seven_append h7)), rfl⟩
      · cases h
  | first =>
    simp only [decodeWire] at h
    split at h
    · next hbase =>
      split at h
      · next haddr =>
        cases h
        have hbyte := nibbles_append byte
        rw [eq_of_beq hbase] at hbyte
        exact ⟨congrArg _ (congrArg _ hbyte), decide_eq_true haddr⟩
      · cases h
    · cases h
  | second =>
    cases h
    exact ⟨rfl, rfl⟩

/-- Settles O2: a host word by its fields, a wire byte by its place. -/
theorem encodeOfDecodeIsTheCode : Obligations.EncodeOfDecodeIsTheCode := by
  intro c i h
  cases c with
  | host w => exact ⟨encode_of_decodeHost h, wellFormed_of_isHost (isHost_of_decodeHost h)⟩
  | wire b => exact encode_of_decodeWire h

/-- Only host commands are encoded as command words (30_encoding R65). -/
theorem isHost_of_encode {w : CommandWord} {i : Instr} (h : encode i = .host w) : i.isHost = true := by
  cases i with
  | dataCmd | addrCmd _ | dispCtrl _ | segData _ => cases h
  | init _ | intensity _ | showdig _ _ | shownum _ | showhex _ | showdp _ _ | clear | on | off => rfl

/-- A command word decodes to an instruction exactly when it is its code. -/
theorem decodeHost_eq_ok_iff {w : CommandWord} {i : Instr} : decodeHost w = .ok i ↔ encode i = .host w := by
  refine ⟨encode_of_decodeHost, fun h => ?_⟩
  have hdec := decodeOfEncodeIsTheInstruction i (wellFormed_of_isHost (isHost_of_encode h))
  rwa [h] at hdec

/-! ### Match and mask -/

/-- The rows of 30_encoding R69 have different mnemonics. -/
theorem hostRows_mnemonic_inj : ∀ r₁ ∈ hostRows, ∀ r₂ ∈ hostRows, r₁.mnemonic = r₂.mnemonic → r₁ = r₂ := by decide

/-- Every instruction's code meets its row of the opcode table (30_encoding R69, R78). -/
theorem meetsRow (i : Instr) : Laws.MeetsRow.Statement i := by
  cases i with
  | init count => exact Laws.MeetsRow.init count
  | intensity level => exact Laws.MeetsRow.intensity level
  | showdig value position => exact Laws.MeetsRow.showdig value position
  | shownum n => exact Laws.MeetsRow.shownum n
  | showhex n => exact Laws.MeetsRow.showhex n
  | showdp position visible => exact Laws.MeetsRow.showdp position visible
  | clear => exact Laws.MeetsRow.clear
  | on => exact Laws.MeetsRow.on
  | off => exact Laws.MeetsRow.off
  | dataCmd => exact Laws.MeetsRow.dataCmd
  | addrCmd address => exact Laws.MeetsRow.addrCmd address
  | dispCtrl low => exact Laws.MeetsRow.dispCtrl low
  | segData code => exact Laws.MeetsRow.segData code

/-- A command's word meets the match and mask of a row with its mnemonic (30_encoding R69). -/
theorem exists_row_of_encode_host {i : Instr} {w : CommandWord} (h : encode i = .host w) :
    ∃ row ∈ hostRows, row.mnemonic = i.mnemonic ∧ w &&& row.mask = row.value := by
  simpa only [Laws.MeetsRow.Statement, h] using meetsRow i

/-- A word that meets a row with field B reserved. -/
theorem commandWord_of_match_reservedB {w : CommandWord} {o : Byte}
    (h : w &&& commandWord 0xFF 0 0xFFFFFFFF = commandWord o 0 0) : commandWord o (fieldA w) 0 = w := by
  obtain ⟨ho, -, hb⟩ := fields_of_match h
  exact commandWord_eq_of_fields ho rfl (BitVec.and_allOnes.symm.trans hb)

/-- A word that meets a row with both fields reserved. -/
theorem commandWord_of_match_reservedAB {w : CommandWord} {o : Byte}
    (h : w &&& commandWord 0xFF 0xFFFFFFFF 0xFFFFFFFF = commandWord o 0 0) : commandWord o 0 0 = w := by
  obtain ⟨ho, ha, hb⟩ := fields_of_match h
  exact commandWord_eq_of_fields ho (BitVec.and_allOnes.symm.trans ha) (BitVec.and_allOnes.symm.trans hb)

/-- A word that meets the row of SHOWDP, which leaves bit 0 to `visible`. -/
theorem commandWord_of_match_showdp {w : CommandWord}
    (h : w &&& commandWord 0xFF 0 0xFFFFFFFE = commandWord 0x06 0 0) :
    commandWord 0x06 (fieldA w) (visibleField (w.getLsbD 0)) = w := by
  obtain ⟨ho, -, -⟩ := fields_of_match h
  have hz : w.extractLsb' 1 31 = 0#31 := calc
    w.extractLsb' 1 31 = w.extractLsb' 1 31 &&& BitVec.allOnes 31 := BitVec.and_allOnes.symm
    _ = (w &&& commandWord 0xFF 0 0xFFFFFFFE).extractLsb' 1 31 :=
      (BitVec.extractLsb'_and (x := w) (y := commandWord 0xFF 0 0xFFFFFFFE)).symm
    _ = 0#31 := by rw [h]; rfl
  exact commandWord_eq_of_fields ho rfl (fieldB_eq_visibleField hz)

/-- A word that meets a row is the code of a command with the row's mnemonic (30_encoding R69). -/
theorem exists_encode_of_match {w : CommandWord} {row : HostRow} (hrow : row ∈ hostRows)
    (h : w &&& row.mask = row.value) : ∃ i, encode i = .host w ∧ i.mnemonic = row.mnemonic := by
  simp only [hostRows, List.mem_cons, List.not_mem_nil, or_false] at hrow
  rcases hrow with rfl | rfl | rfl | rfl | rfl | rfl | rfl | rfl | rfl
  · exact ⟨.init (fieldA w), congrArg Code.host (commandWord_of_match_reservedB h), rfl⟩
  · exact ⟨.intensity (fieldA w), congrArg Code.host (commandWord_of_match_reservedB h), rfl⟩
  · obtain ⟨ho, -, -⟩ := fields_of_match (o := 0x03) (a := 0) (b := 0) (ma := 0) (mb := 0) h
    exact ⟨.showdig (fieldA w) (fieldB w), congrArg Code.host (commandWord_eq_of_fields ho rfl rfl), rfl⟩
  · exact ⟨.shownum (fieldA w), congrArg Code.host (commandWord_of_match_reservedB h), rfl⟩
  · exact ⟨.showhex (fieldA w), congrArg Code.host (commandWord_of_match_reservedB h), rfl⟩
  · exact ⟨.showdp (fieldA w) (w.getLsbD 0), congrArg Code.host (commandWord_of_match_showdp h), rfl⟩
  · exact ⟨.clear, congrArg Code.host (commandWord_of_match_reservedAB h), rfl⟩
  · exact ⟨.on, congrArg Code.host (commandWord_of_match_reservedAB h), rfl⟩
  · exact ⟨.off, congrArg Code.host (commandWord_of_match_reservedAB h), rfl⟩

/-- The decoder selects a row's mnemonic exactly on the row's match and mask (30_encoding R69). -/
theorem match_iff_decodeHost (w : CommandWord) {row : HostRow} (hrow : row ∈ hostRows) :
    w &&& row.mask = row.value ↔ ∃ i, decodeHost w = .ok i ∧ i.mnemonic = row.mnemonic := by
  simp only [decodeHost_eq_ok_iff]
  refine ⟨exists_encode_of_match hrow, ?_⟩
  rintro ⟨i, hi, hname⟩
  obtain ⟨row', hrow', hname', h⟩ := exists_row_of_encode_host hi
  rwa [hostRows_mnemonic_inj _ hrow' _ hrow (hname'.trans hname)] at h

/-- Settles O3: two rows that a word meets have the mnemonic of the one instruction it decodes to. -/
theorem mnemonicExactlyOnMatchAndMask : Obligations.MnemonicExactlyOnMatchAndMask := by
  refine ⟨fun w _ hrow => match_iff_decodeHost w hrow, fun w r₁ h₁ r₂ h₂ hm₁ hm₂ => ?_⟩
  obtain ⟨i, hi, hname₁⟩ := (match_iff_decodeHost w h₁).1 hm₁
  obtain ⟨j, hj, hname₂⟩ := (match_iff_decodeHost w h₂).1 hm₂
  cases hi.symm.trans hj
  exact hostRows_mnemonic_inj _ h₁ _ h₂ (hname₁.symm.trans hname₂)

/-! ### Illegal words -/

/-- The illegal command words (30_encoding R71): (a) an OPC that names no command, (b) a reserved field that is not
zero. -/
def IllegalWord (w : CommandWord) : Prop :=
  let opc := (fieldOpc w).toNat
  (opc = 0 ∨ 0x0A ≤ opc) ∨
  ((opc = 0x01 ∨ opc = 0x02 ∨ opc = 0x04 ∨ opc = 0x05) ∧ fieldB w ≠ 0) ∨
  (opc = 0x06 ∧ 2 ≤ (fieldB w).toNat) ∨
  ((opc = 0x07 ∨ opc = 0x08 ∨ opc = 0x09) ∧ (fieldA w ≠ 0 ∨ fieldB w ≠ 0))

theorem exists_ifReservedZero_eq_error {zero : Bool} {i : Instr} :
    (∃ why, ifReservedZero zero i = .error why) ↔ zero = false := by
  cases zero <;> simp [ifReservedZero]

/-- The decoder rejects exactly the illegal words (30_encoding R71). -/
theorem exists_decodeHost_eq_error (w : CommandWord) : (∃ why, decodeHost w = .error why) ↔ IllegalWord w := by
  unfold decodeHost IllegalWord
  split
  case h_3 ho => simp [ho]
  case h_10 =>
    refine ⟨fun _ => .inl ?_, fun _ => ⟨_, rfl⟩⟩
    simp only [imp_false] at *
    omega
  case h_6 ho => simp [exists_ifReservedZero_eq_error, showdp_reserved_eq_zero_iff, Nat.lt_iff_add_one_le, ho]
  case h_7 ho | h_8 ho | h_9 ho => simp [exists_ifReservedZero_eq_error, imp_iff_not_or, ho]
  case h_1 ho | h_2 ho | h_4 ho | h_5 ho => simp [exists_ifReservedZero_eq_error, ho]

/-- Accepting a rejected word raises IllegalCommand (60_exceptions R136). -/
theorem acceptWord_of_error {w : CommandWord} (h : ∃ why, decodeHost w = .error why) (s : State) :
    acceptWord w s = .next (raiseIllegalCommand s) := by
  obtain ⟨why, hw⟩ := h
  simp [acceptWord, hw]

/-- IllegalCommand changes nothing but ILL; READY is 1 and SEQ is IDLE (60_exceptions R136). -/
theorem raiseIllegalCommand_eq (s : State) :
    raiseIllegalCommand s = { s with arch := { s.arch with ill := true }, ready := true, seq := .idle } := rfl

/-- Settles O4: the decoder's rejections, and what the exception they raise leaves. -/
theorem illegalWordsAndTheirEffect : Obligations.IllegalWordsAndTheirEffect := by
  intro w s
  refine ⟨exists_decodeHost_eq_error w, fun h => ?_⟩
  rw [acceptWord_of_error ((exists_decodeHost_eq_error w).2 h), raiseIllegalCommand_eq]

/-! ### Words and lines of the spec -/

/-- Settles O5: each table word, decoded. -/
theorem wordsOfTheSpecDecode : Obligations.WordsOfTheSpecDecode := by
  unfold Obligations.WordsOfTheSpecDecode
  decide

/-- Settles O6: each line of 30_encoding R77, assembled and encoded. -/
theorem encodingExamplesAssemble : Obligations.EncodingExamplesAssemble := by
  unfold Obligations.EncodingExamplesAssemble
  decide

end Sys2Proof.Machine
end

section
/-! PROOFS. The bus primitives of 40_bus_primitives: the events each emits, the edges of CLK a byte makes, and the frames
the reference monitor reads back. -/

namespace Sys2Proof.Machine

/-- Settles O15: the monitor goes from an idle bus to an idle bus over each frame, which is the frame it adds. -/
theorem monitorReadsEveryFrameBack : Obligations.MonitorReadsEveryFrameBack :=
  monitorFrames_framesTrace

/-! ### The edges of CLK in a byte (40_bus_primitives R91) -/

/-- A bit makes one rising edge, with DIO at the bit, from either level of CLK. -/
theorem risingEdges_bitTrace_append (c d v : Bool) (es : List Event) :
    risingEdges c d (bitTrace v ++ es) = v :: risingEdges true v es := by
  simp [bitTrace, risingEdges]

/-- A bit makes one falling edge, and only from CLK high. -/
theorem fallingEdges_bitTrace_append (c v : Bool) (es : List Event) :
    fallingEdges c (bitTrace v ++ es) = c.toNat + fallingEdges true es := by
  cases c <;> simp [bitTrace, fallingEdges]

/-- After one bit or more CLK is high, so the trailing strobe adds no rising edge (40_bus_primitives C3). -/
theorem risingEdges_bits_strobe (c d v : Bool) (vs : List Bool) :
    risingEdges c d ((v :: vs).flatMap bitTrace ++ [⟨.clk, true⟩, ⟨.clk, false⟩]) = v :: vs := by
  induction vs generalizing c d v with
  | nil => exact risingEdges_bitTrace_append c d v _
  | cons w vs ih => rw [List.flatMap_cons, List.append_assoc, risingEdges_bitTrace_append, ih]

/-- The trailing strobe ends the last bit's high level: from CLK low there are as many falling edges as bits. -/
theorem fallingEdges_bits_strobe (c v : Bool) (vs : List Bool) :
    fallingEdges c ((v :: vs).flatMap bitTrace ++ [⟨.clk, true⟩, ⟨.clk, false⟩]) = c.toNat + (v :: vs).length := by
  induction vs generalizing c v with
  | nil => exact fallingEdges_bitTrace_append c v _
  | cons w vs ih =>
    rw [List.flatMap_cons, List.append_assoc, fallingEdges_bitTrace_append, ih, Bool.toNat_true, Nat.add_comm 1]
    rfl

theorem risingEdges_byteTrace (c d : Bool) (b : Byte) : risingEdges c d (byteTrace b) = lsbFirst b :=
  risingEdges_bits_strobe c d (b.getLsbD 0) _

theorem fallingEdges_byteTrace (c : Bool) (b : Byte) : fallingEdges c (byteTrace b) = c.toNat + 8 :=
  fallingEdges_bits_strobe c (b.getLsbD 0) _

/-- Settles O13: the events are `byteTrace b`, and the byte's edges are counted bit by bit. -/
theorem writeByteClocksEachBitOnce : Obligations.WriteByteClocksEachBitOnce := by
  intro b c hclk
  refine ⟨byteTrace b, ?_, risingEdges_byteTrace _ _ b, ?_⟩
  · rw [writeByte_eq, Copy.after_trace]
  · rw [fallingEdges_byteTrace, hclk, Bool.toNat_false]

/-! ### The events of the primitives (40_bus_primitives R85 to R90) -/

/-- Settles O12: each primitive is `Copy.after` its trace, which moves only the lines. -/
theorem primitivesEmitExactlyTheirEvents : Obligations.PrimitivesEmitExactlyTheirEvents := by
  refine ⟨fun c v => ⟨?_, rfl, ?_, rfl⟩, fun c => ?_, fun b c => ?_⟩
  · exact lineWrite_trace .clk v c
  · exact lineWrite_trace .dio v c
  · rw [start_eq, stop_eq]
    exact ⟨c.after_trace startTrace, rfl, c.after_trace stopTrace, rfl⟩
  · rw [writeByte_eq]
    exact ⟨c.after_trace (byteTrace b), c.arch.afterTrace_byteTrace b⟩

end Sys2Proof.Machine
end

section
/-! PROOFS. The framed commands of 41_framed_commands: the events each adds to the trace, and what each of the four wire
bytes sends and leaves when it runs alone. -/

namespace Sys2Proof.Machine

/-! ### The events a framed command adds (41_framed_commands R101) -/

theorem frame_trace (bytes : List Byte) (c : Copy) : (frame bytes c).trace = c.trace ++ frameTrace bytes := by
  rw [frame_eq_after, Copy.after_trace]

theorem writeAddressedByte_trace (p : Int) (d : Byte) (c : Copy) :
    (writeAddressedByte p d c).trace = c.trace ++ framesTrace (addressedFrames c.arch p d) := by
  simp [writeAddressedByte_eq, Copy.trace]

theorem framesTrace_singleton (bytes : List Byte) : framesTrace [bytes] = frameTrace bytes :=
  List.flatMap_singleton ..

/-- Frames of one, two and one bytes: 31 + 57 + 31 events (41_framed_commands R101). -/
theorem framesTrace_addressedFrames_length (a : Arch) (p : Int) (d : Byte) :
    (framesTrace (addressedFrames a p d)).length = 119 := by
  simp [addressedFrames, dataFrame, ctrlFrame, framesTrace_cons]

theorem frame_trace_length (bytes : List Byte) (c : Copy) :
    (frame bytes c).trace.length = c.trace.length + (26 * bytes.length + 5) := by
  rw [frame_trace, List.length_append, frameTrace_length]

/-- Settles O14: each operation adds its trace, whose length is known from the bytes it sends. -/
theorem framedCommandTraceLengths : Obligations.FramedCommandTraceLengths := by
  intro c b₀ b₁ d p
  refine ⟨?_, ?_, ?_, frame_trace_length [cmdData] c, frame_trace_length [ctrlByte c.arch] c,
    frame_trace_length [b₀, b₁] c, ?_⟩
  · rw [start_eq, Copy.after_trace, List.length_append]
    rfl
  · rw [stop_eq, Copy.after_trace, List.length_append]
    rfl
  · rw [writeByte_eq, Copy.after_trace, List.length_append, byteTrace_length]
  · rw [writeAddressedByte_trace, List.length_append, framesTrace_addressedFrames_length]

/-! ### The bytes of the wire instructions (30_encoding R78) -/

/-- The byte DISP_CTRL sends has bit 7 = 1 over its low field. -/
theorem ctrlBase_or_low (low : BitVec 7) : cmdCtrlBase ||| low.zeroExtend 8 = 1#1 ++ low := by
  revert low
  decide

/-- CtrlByte() is the byte of the DISP_CTRL with its bits 6:0 (41_framed_commands R97). -/
theorem ctrlByte_low_append (a : Arch) : 1#1 ++ (ctrlByte a).extractLsb' 0 7 = ctrlByte a :=
  bit_seven_append (controlByteFields a).1

theorem addrByte_getLsbD_seven (n : BitVec 3) (p : Int) : (addrByte n p).getLsbD 7 = true := by
  simp [addrByte, cmdAddrBase]

/-- A wrapped position is below 5, so the address field of ADDR_CMD holds it (20_memory R58). -/
theorem toNat_ofNat_wrap {n : BitVec 3} (h : posCntLegal n = true) (p : Int) :
    (BitVec.ofNat 4 (wrap n p)).toNat = wrap n p := by
  have hw : wrap n p < 5 := wrap_lt_maxPos h p
  exact (BitVec.toNat_ofNat ..).trans (Nat.mod_eq_of_lt (by omega))

/-! ### A wire byte running alone (log entry 2) -/

/-- An operation that is one frame sends it and leaves both lines high, on every state (41_framed_commands R102). -/
theorem launch_frame_eq (bytes : List Byte) (s : State) :
    launch (frame bytes) s = .next (launched s (frameTrace bytes) s.arch.onIdleBus) :=
  launch_eq (frame_eq bytes (copyOf s)) (List.cons_ne_nil _ _)

theorem exec_dataCmd_eq (s : State) :
    exec .dataCmd s = .next (launched s (frameTrace dataFrame) s.arch.onIdleBus) :=
  launch_frame_eq [cmdData] s

theorem exec_dispCtrl_eq (low : BitVec 7) (s : State) :
    exec (.dispCtrl low) s = .next (launched s (frameTrace [1#1 ++ low]) s.arch.onIdleBus) := by
  rw [← ctrlBase_or_low]
  exact launch_frame_eq _ s

/-- ADDR_CMD leaves frame F_ADDR open: CLK low, and DIO at bit 7 of the byte, which is 1. -/
theorem exec_addrCmd_eq (address : BitVec 4) {s : State} (h : posCntLegal s.arch.posCnt = true) :
    exec (.addrCmd address) s =
      .next (launched s (startTrace ++ byteTrace (addrByte s.arch.posCnt address.toNat))
        { s.arch with lineClk := false, lineDio := true }) := by
  refine launchWrapping_eq h ?_ (List.cons_ne_nil _ _)
  rw [start_eq, writeByte_eq, Copy.after, Copy.after_arch, Arch.afterTrace_byteTrace]
  simp [Copy.after, Arch.afterTrace, addrByte_getLsbD_seven]

theorem exec_segData_eq (code : Byte) (s : State) :
    exec (.segData code) s = .next (launched s (byteTrace code ++ stopTrace) s.arch.onIdleBus) := by
  refine launch_eq (op := fun c => writeByte code c |> stop) ?_ (by simp [stopTrace])
  rw [writeByte_eq, stop_eq, Copy.after_after, Copy.after, Arch.afterTrace_stopTrace]
  rfl

/-- Settles O16: DATA_CMD is the frame F_DATA. -/
theorem dataCmdSendsItsFrame : Obligations.DataCmdSendsItsFrame := by
  intro s
  rw [framesTrace_singleton]
  exact exec_dataCmd_eq s

/-- Settles O17: DISP_CTRL is the frame of its byte, and CtrlByte() is such a byte. -/
theorem dispCtrlSendsItsFrame : Obligations.DispCtrlSendsItsFrame := by
  refine ⟨fun low s => ?_, fun s => ctrlByte_low_append s.arch, fun c => ?_⟩
  · rw [framesTrace_singleton]
    exact exec_dispCtrl_eq low s
  · rw [framesTrace_singleton]
    exact frame_trace [ctrlByte c.arch] c

/-- Settles O18: the two halves of F_ADDR; the address field of ADDR_CMD wraps as a natural number. -/
theorem addrCmdAndSegDataSendTheirBytes : Obligations.AddrCmdAndSegDataSendTheirBytes := by
  refine ⟨fun address s h => ?_, exec_segData_eq⟩
  rw [exec_addrCmd_eq address h, addrByte, wrap_natCast]
  rfl

/-- Settles O19: the trace of F_DATA, the two parts of F_ADDR's, and F_CTRL's. -/
theorem addressedWriteIsItsFourWireBytes : Obligations.AddressedWriteIsItsFourWireBytes := by
  intro s p d h
  have haddr := exec_addrCmd_eq (BitVec.ofNat 4 (wrap s.arch.posCnt p)) h
  rw [toNat_ofNat_wrap h, addrByte_wrap h] at haddr
  have hctrl := exec_dispCtrl_eq ((ctrlByte s.arch).extractLsb' 0 7) s
  rw [ctrlByte_low_append] at hctrl
  refine ⟨_, _, _, _, _, _, _, _, _, _, _, _, exec_dataCmd_eq s, haddr, exec_segData_eq d s, hctrl, ?_⟩
  calc (writeAddressedByte p d (copyOf s)).trace
      = framesTrace (addressedFrames s.arch p d) := writeAddressedByte_trace p d (copyOf s)
    _ = frameTrace dataFrame ++ (startTrace ++ byteTrace (addrByte s.arch.posCnt p)) ++
          (byteTrace d ++ stopTrace) ++ frameTrace (ctrlFrame s.arch) := by
        simp [addressedFrames, framesTrace_cons, frameTrace]

end Sys2Proof.Machine
end

section
/-! PROOFS. The display operations of 42_display_ops: the operands, what each host command sends and leaves, the laws
that follow, and the registers each instruction may write. -/

namespace Sys2Proof.Machine

/-! ### Operands -/

/-- Settles O7: the five counts that PosCount keeps, and the default. -/
theorem posCountDefaultsToFour : Obligations.PosCountDefaultsToFour := by
  intro a
  by_cases h : 1 ≤ a ∧ a ≤ 5
  · rw [if_pos h, posCount, if_pos (show (Config.minPos : Int) ≤ a ∧ a ≤ (Config.maxPos : Int) from h)]
    have hcases : a = 1 ∨ a = 2 ∨ a = 3 ∨ a = 4 ∨ a = 5 := by omega
    rcases hcases with rfl | rfl | rfl | rfl | rfl <;> rfl
  · rw [if_neg h, posCount, if_neg (show ¬((Config.minPos : Int) ≤ a ∧ a ≤ (Config.maxPos : Int)) from h)]
    rfl

/-! The shifted nibbles of the magnitude as places of base 16 (42_display_ops R117). -/

theorem hex2_eq (m : Nat) : hex2 m = m / 16 % 16 := congrArg (· % 16) (Nat.shiftRight_eq_div_pow m 4)

theorem hex1_eq (m : Nat) : hex1 m = m / 256 % 16 := congrArg (· % 16) (Nat.shiftRight_eq_div_pow m 8)

theorem hex0_eq (m : Nat) : hex0 m = m / 4096 % 16 := congrArg (· % 16) (Nat.shiftRight_eq_div_pow m 12)

/-- Settles O10: each digit is a quotient's remainder. -/
theorem digitsAreTheLowFourPlaces : Obligations.DigitsAreTheLowFourPlaces := by
  intro m
  rw [hex0_eq, hex1_eq, hex2_eq]
  unfold dec0 dec1 dec2 dec3 hex3
  omega

/-! ### Control bytes -/

theorem ctrlByte_of_on {a : Arch} (h : a.dispOn = true) : ctrlByte a = 0x88 ||| a.bright := by
  rw [ctrlByte, h]
  rfl

theorem ctrlByte_of_off {a : Arch} (h : a.dispOn = false) : ctrlByte a = 0x80 ||| a.bright := by
  rw [ctrlByte, h]
  rfl

/-! ### Acceptance of the commands that need no position -/

/-- An operation that sets registers and then sends both one-byte frames does so on every state
(42_display_ops R128). -/
theorem launch_sendBoth_eq (f : Arch → Arch) (s : State) :
    launch (fun c => assign f c |> sendDataCommand |> sendDisplayControl) s =
      .next (launched s (framesTrace [dataFrame, ctrlFrame (f s.arch)]) (f s.arch).onIdleBus) :=
  launch_eq (sendBoth_eq _) (framesTrace_ne_nil (List.cons_ne_nil _ _))

theorem exec_on_eq (s : State) :
    exec .on s = .next (launched s (framesTrace (commandFrames .on s.ports.cfgInitIntensity s.arch))
      (commandPost .on s.ports.cfgInitIntensity s.arch)) :=
  launch_sendBoth_eq (Arch.setDispOn true) s

theorem exec_off_eq (s : State) :
    exec .off s = .next (launched s (framesTrace (commandFrames .off s.ports.cfgInitIntensity s.arch))
      (commandPost .off s.ports.cfgInitIntensity s.arch)) :=
  launch_sendBoth_eq (Arch.setDispOn false) s

/-- INTENSITY below 1 is OFF, state and trace (42_display_ops R131 (b)). -/
theorem exec_intensity_of_lt_one {level : Operand} (h : sint32 level < 1) (s : State) :
    exec (.intensity level) s = exec .off s :=
  congrArg (launch · s) (funext fun _ => if_pos h)

/-- INTENSITY from 1 on sets DISP_ON and BRIGHT before it sends anything (42_display_ops R109). -/
theorem exec_intensity_of_not_lt_one {level : Operand} (h : ¬ sint32 level < 1) (s : State) :
    exec (.intensity level) s = launch (fun c =>
      assign (fun a => (a.setDispOn true).setBright (storedBrightness (sint32 level))) c
        |> sendDataCommand |> sendDisplayControl) s :=
  congrArg (launch · s) (funext fun _ => if_neg h)

theorem exec_intensity_eq (level : Operand) (s : State) :
    exec (.intensity level) s =
      .next (launched s (framesTrace (commandFrames (.intensity level) s.ports.cfgInitIntensity s.arch))
        (commandPost (.intensity level) s.ports.cfgInitIntensity s.arch)) := by
  by_cases h : sint32 level < 1
  · rw [exec_intensity_of_lt_one h, exec_off_eq]
    simp only [commandFrames, commandPost, commandRegs, h, if_true, commandWrites]
  · rw [exec_intensity_of_not_lt_one h, launch_sendBoth_eq]
    simp only [commandFrames, commandPost, commandRegs, h, if_false, commandWrites]
    rfl

/-! ### Addressed writes of a whole command -/

/-- Clear's frames, at positions that wrap to themselves (42_display_ops R126). -/
theorem zeroWrites_frames (a : Arch) :
    (zeroWrites a.posCnt.toNat).flatMap (fun w => addressedFrames a w.1 w.2) =
      (List.range a.posCnt.toNat).flatMap fun (p : Nat) => awFrames (ctrlByte a) p 0x00 := by
  rw [zeroWrites, List.flatMap_map]
  refine List.flatMap_congr fun p hp => ?_
  rw [addressedFrames_eq, wrap_of_lt (List.mem_range.1 hp)]

/-- A number's frames, at positions reduced as natural numbers (42_display_ops R114, R119). -/
theorem digitWrites_frames (a : Arch) (negative : Bool) (d0 d1 d2 d3 : Nat) :
    (digitWrites negative d0 d1 d2 d3).flatMap (fun w => addressedFrames a w.1 w.2) =
      awFrames (ctrlByte a) (0 % a.posCnt.toNat) (if negative then segMinus else segCode d0) ++
      awFrames (ctrlByte a) (3 % a.posCnt.toNat) (segCode d3) ++
      awFrames (ctrlByte a) (2 % a.posCnt.toNat) (segCode d2) ++
      awFrames (ctrlByte a) (1 % a.posCnt.toNat) (segCode d1) := by
  simp only [← wrap_natCast]
  rfl

/-- SEGBUF after a number's writes: the later write is the outer one (42_display_ops R114, R119). -/
theorem mirrorWrites_digitWrites (n : BitVec 3) (negative : Bool) (d0 d1 d2 d3 : Nat) (m : Memory) :
    mirrorWrites n (digitWrites negative d0 d1 d2 d3) m =
      memWrite (1 % n.toNat) (segCode d1) (memWrite (2 % n.toNat) (segCode d2) (memWrite (3 % n.toNat) (segCode d3)
        (memWrite (0 % n.toNat) (if negative then segMinus else segCode d0) m))) := by
  simp only [← wrap_natCast]
  rfl

/-! ### The host commands: result, trace and completion -/

/-- Settles O20: `exec_init_eq`, with the frames of Clear on the new registers. -/
theorem initResult : Obligations.InitResult := by
  intro count s
  refine ⟨decodeHost_eq_ok_iff.2 rfl, ?_⟩
  have hframes := zeroWrites_frames (commandRegs (.init count) s.ports.cfgInitIntensity s.arch)
  rw [ctrlByte_of_on rfl] at hframes
  exact (exec_init_eq count s).trans
    (congrArg (fun frames => Host.Outcome.next
      (launched s (framesTrace frames) (commandPost (.init count) s.ports.cfgInitIntensity s.arch))) hframes)

/-- Settles O21: `exec_intensity_eq`, in its two cases. -/
theorem intensityResult : Obligations.IntensityResult := by
  intro level s
  refine ⟨decodeHost_eq_ok_iff.2 rfl, ?_⟩
  rw [exec_intensity_eq]
  by_cases h : level.toInt < 1
  · simp only [commandFrames, commandPost, commandRegs, sint32, h, if_true]
    rfl
  · simp only [commandFrames, commandPost, commandRegs, sint32, h, if_false]
    rfl

/-- Settles O22: the one addressed write of SHOWDIG. -/
theorem showdigResult : Obligations.ShowdigResult :=
  fun _ _ _ h => ⟨decodeHost_eq_ok_iff.2 rfl, exec_host_eq rfl h⟩

/-- Settles O23: the four addressed writes of a number, with its decimal digits. -/
theorem shownumResult : Obligations.ShownumResult := by
  intro n s h
  refine ⟨decodeHost_eq_ok_iff.2 rfl, ?_⟩
  rw [exec_host_eq rfl h]
  simp only [commandFrames, commandPost, commandRegs, commandWrites, digitWrites_frames, mirrorWrites_digitWrites,
    decide_eq_true_eq]
  rfl

/-- Settles O24: the four addressed writes of a number, with its nibbles. -/
theorem showhexResult : Obligations.ShowhexResult := by
  intro n s h
  refine ⟨decodeHost_eq_ok_iff.2 rfl, ?_⟩
  rw [exec_host_eq rfl h]
  simp only [commandFrames, commandPost, commandRegs, commandWrites, digitWrites_frames, mirrorWrites_digitWrites,
    decide_eq_true_eq, hex0_eq, hex1_eq, hex2_eq]
  rfl

/-- Settles O25: the one addressed write of SHOWDP. -/
theorem showdpResult : Obligations.ShowdpResult :=
  fun _ _ _ h => ⟨decodeHost_eq_ok_iff.2 rfl, exec_host_eq rfl h⟩

/-- Settles O26: Clear's frames and its writes, at positions that wrap to themselves. -/
theorem clearResult : Obligations.ClearResult := by
  intro s h
  refine ⟨decodeHost_eq_ok_iff.2 rfl, ?_⟩
  rw [exec_host_eq rfl h]
  simp only [commandFrames, commandPost, commandRegs, commandWrites, zeroWrites_frames, mirrorWrites_zeroWrites]
  rfl

/-- Settles O27: ON's control byte has DISP_ON set. -/
theorem onResult : Obligations.OnResult := by
  intro s
  refine ⟨decodeHost_eq_ok_iff.2 rfl, ?_⟩
  rw [exec_on_eq, commandFrames, ctrlFrame, ctrlByte_of_on rfl]
  rfl

/-- Settles O28: OFF's control byte has DISP_ON cleared. -/
theorem offResult : Obligations.OffResult := by
  intro s
  refine ⟨decodeHost_eq_ok_iff.2 rfl, ?_⟩
  rw [exec_off_eq, commandFrames, ctrlFrame, ctrlByte_of_off rfl]
  rfl

/-! ### Laws of the host commands -/

theorem storedBrightness_of_le_eight {v : Int} (h1 : 1 ≤ v) (h8 : v ≤ 8) :
    ((storedBrightness v).toNat : Int) = v - 1 := by
  rw [storedBrightness, brightMaxExt, min_eq_left h8, BitVec.toNat_ofInt]
  omega

theorem storedBrightness_of_eight_le {v : Int} (h : 8 ≤ v) : storedBrightness v = 7 := by
  rw [storedBrightness, brightMaxExt, min_eq_right h]
  rfl

/-- An instruction that is accepted with a trace has the registers to commit in SEQ (10_state R31). -/
theorem busy_of_launched {i : Instr} {s : State} {trace : List Event} {post : Arch} (hne : trace ≠ [])
    (h : exec i s = .next (launched s trace post)) :
    ∃ e rest, exec i s = .next { s with ready := false, seq := .busy e rest post } := by
  obtain ⟨e, rest, -, hl⟩ := launched_of_ne_nil (s := s) hne post
  exact ⟨e, rest, h.trans (congrArg _ hl)⟩

/-- Settles O30: the registers of INTENSITY, below 1, from 1 to 8, and from 8 on. -/
theorem intensityForEveryLevel : Obligations.IntensityForEveryLevel := by
  intro level s
  obtain ⟨e, rest, hx⟩ := busy_of_launched (framesTrace_ne_nil (List.cons_ne_nil _ _)) (exec_intensity_eq level s)
  refine ⟨e, rest, _, hx, fun h => ?_, fun ⟨h1, h8⟩ => ?_, fun h => ?_⟩
  · simp [commandPost, commandRegs, sint32, h]
  · have hv : ¬ level.toInt < 1 := not_lt.2 h1
    simpa [commandPost, commandRegs, sint32, hv] using storedBrightness_of_le_eight h1 h8
  · have hv : ¬ level.toInt < 1 := not_lt.2 (le_trans (by decide) h)
    simpa [commandPost, commandRegs, sint32, hv] using storedBrightness_of_eight_le h

/-- Settles O32: neither OFF nor ON writes BRIGHT, and INTENSITY below 1 is OFF. -/
theorem offThenOnRestoresBrightness : Obligations.OffThenOnRestoresBrightness := by
  refine ⟨fun s => ?_, fun level s h => exec_intensity_of_lt_one h s⟩
  obtain ⟨e, rest, hoff⟩ := busy_of_launched (framesTrace_ne_nil (List.cons_ne_nil _ _)) (exec_off_eq s)
  obtain ⟨e', rest', hon⟩ := busy_of_launched (framesTrace_ne_nil (List.cons_ne_nil _ _))
    (exec_on_eq { s with arch := commandPost .off s.ports.cfgInitIntensity s.arch })
  exact ⟨e, rest, _, hoff, e', rest', _, hon, rfl, rfl⟩

/-- SHOWDP stores its byte at the wrapped position (42_display_ops R123). -/
theorem memRead_commandPost_showdp (position : Operand) (visible : Bool) (cfg : Operand) {a : Arch} (h : a.Legal) :
    memRead (commandPost (.showdp position visible) cfg a).segBuf (wrap a.posCnt (sint32 position)) =
      withPoint visible (memRead a.segBuf (wrap a.posCnt (sint32 position))) := by
  obtain ⟨-, hm, -⟩ := h
  exact (memRead_memWrite hm ..).trans (if_pos rfl)

/-- Clearing the decimal point undoes setting it: checked over the 256 bytes. -/
theorem withPoint_false_withPoint_true (b : Byte) : withPoint false (withPoint true b) = withPoint false b := by
  revert b
  decide

/-- Clearing a decimal point that is not set changes nothing: checked over the 256 bytes. -/
theorem withPoint_false_of_bit_seven {b : Byte} (h : b.getLsbD 7 = false) : withPoint false b = b := by
  revert b
  decide

/-- Settles O33: each SHOWDP stores the byte it reads with the point set or cleared. -/
theorem decimalPointRoundTrip : Obligations.DecimalPointRoundTrip := by
  intro position s hl p b
  have hshown := commandPost_legal (i := .showdp position true) rfl s.ports.cfgInitIntensity hl
  obtain ⟨e, rest, -, hx⟩ := exec_host_busy (i := .showdp position true) rfl hl.1
  obtain ⟨e', rest', -, hx'⟩ := exec_host_busy (i := .showdp position false)
    (s := { s with arch := commandPost (.showdp position true) s.ports.cfgInitIntensity s.arch }) rfl hshown.1
  have hset : memRead _ p = withPoint true b := memRead_commandPost_showdp position true s.ports.cfgInitIntensity hl
  have hclear : memRead _ p = withPoint false b := calc
    _ = withPoint false _ := memRead_commandPost_showdp position false s.ports.cfgInitIntensity hshown
    _ = withPoint false (withPoint true b) := congrArg (withPoint false) hset
    _ = withPoint false b := withPoint_false_withPoint_true b
  exact ⟨e, rest, _, hx, hset, e', rest', _, hx', hclear, fun h7 => hclear.trans (withPoint_false_of_bit_seven h7)⟩

/-- Clear leaves every position from the count on as it was (42_display_ops R127). -/
theorem memRead_mirrorWrites_zeroWrites_of_le {n : BitVec 3} {p : Nat} (hp : n.toNat ≤ p) (m : Memory) :
    memRead (mirrorWrites n (zeroWrites n.toNat) m) p = memRead m p := by
  refine memRead_mirrorWrites_of_notMem _ (fun w hw => ?_) m
  obtain ⟨q, hq, rfl⟩ := List.mem_map.1 hw
  have hlt := List.mem_range.1 hq
  rw [wrap_of_lt hlt]
  omega

/-- Settles O34: Clear's writes below the count and beyond it. -/
theorem clearLeavesEveryPositionZero : Obligations.ClearLeavesEveryPositionZero := by
  intro s hl
  obtain ⟨hn, hm, -⟩ := hl
  obtain ⟨e, rest, -, hx⟩ := exec_host_busy (i := .clear) rfl hn
  refine ⟨e, rest, _, hx, fun p => ?_⟩
  split
  · next hp => exact memRead_mirrorWrites_zeroWrites hn hp hm
  · next hp => exact memRead_mirrorWrites_zeroWrites_of_le (not_lt.1 hp) s.arch.segBuf

/-! ### What a number leaves at each position (42_display_ops R115, R118) -/

/-- What four digits leave in a buffer of `n` positions that held `old`: with fewer than four positions the later of two
writes to the same position wins. -/
def DigitsLeft (n : Nat) (old new : Memory) (d₀ d₁ d₂ d₃ : Byte) : Prop :=
  (4 ≤ n → memRead new 0 = d₀ ∧ memRead new 1 = d₁ ∧ memRead new 2 = d₂ ∧ memRead new 3 = d₃ ∧
    memRead new 4 = memRead old 4) ∧
  (n = 3 → memRead new 0 = d₃ ∧ memRead new 1 = d₁ ∧ memRead new 2 = d₂) ∧
  (n = 2 → memRead new 0 = d₂ ∧ memRead new 1 = d₁) ∧
  (n = 1 → memRead new 0 = d₁)

/-- A position after a number's writes holds the last of them that wraps to it. -/
theorem memRead_mirrorWrites_digitWrites {n : BitVec 3} (hn : posCntLegal n = true) {m : Memory}
    (hm : Memory.wf m = true) (negative : Bool) (d0 d1 d2 d3 p : Nat) :
    memRead (mirrorWrites n (digitWrites negative d0 d1 d2 d3) m) p =
      if p = 1 % n.toNat then segCode d1 else if p = 2 % n.toNat then segCode d2
      else if p = 3 % n.toNat then segCode d3
      else if p = 0 % n.toNat then (if negative then segMinus else segCode d0) else memRead m p := by
  have hwf (ws : List (Int × Byte)) : Memory.wf (mirrorWrites n ws m) = true := mirrorWrites_wf hn hm ws
  simp only [← wrap_natCast]
  refine (memRead_memWrite (hwf [_, _, _]) ..).trans (congrArg _ ?_)
  refine (memRead_memWrite (hwf [_, _]) ..).trans (congrArg _ ?_)
  refine (memRead_memWrite (hwf [_]) ..).trans (congrArg _ ?_)
  exact memRead_memWrite hm ..

/-- A number's writes leave its digits, at each of the five position counts. -/
theorem digitsLeft_digitWrites {n : BitVec 3} (hn : posCntLegal n = true) {m : Memory} (hm : Memory.wf m = true)
    (negative : Bool) (d0 d1 d2 d3 : Nat) :
    DigitsLeft n.toNat m (mirrorWrites n (digitWrites negative d0 d1 d2 d3) m)
      (if negative then segMinus else segCode d0) (segCode d1) (segCode d2) (segCode d3) := by
  have hmax := ((posCntLegal_iff n).1 hn).2
  simp only [DigitsLeft, memRead_mirrorWrites_digitWrites hn hm]
  refine ⟨fun h => ?_, fun h => by simp [h], fun h => by simp [h], fun h => by simp [h]⟩
  obtain h | h : n.toNat = 4 ∨ n.toNat = 5 := by omega
  · simp [h]
  · simp [h]

/-- Settles O35: the decimal digits of the magnitude. -/
theorem shownumAtEachPositionCount : Obligations.ShownumAtEachPositionCount := by
  intro n s hl
  obtain ⟨hn, hm, -⟩ := hl
  obtain ⟨e, rest, -, hx⟩ := exec_host_busy (i := .shownum n) rfl hn
  refine ⟨e, rest, _, hx, ?_⟩
  have h := digitsLeft_digitWrites hn hm (decide (sint32 n < 0)) (dec0 (magnitude (sint32 n)))
    (dec1 (magnitude (sint32 n))) (dec2 (magnitude (sint32 n))) (dec3 (magnitude (sint32 n)))
  simp only [decide_eq_true_eq] at h
  exact h

/-- Settles O36: the nibbles of the magnitude. -/
theorem showhexAtEachPositionCount : Obligations.ShowhexAtEachPositionCount := by
  intro n s hl
  obtain ⟨hn, hm, -⟩ := hl
  obtain ⟨e, rest, -, hx⟩ := exec_host_busy (i := .showhex n) rfl hn
  refine ⟨e, rest, _, hx, ?_⟩
  have h := digitsLeft_digitWrites hn hm (decide (sint32 n < 0)) (hex0 (magnitude (sint32 n)))
    (hex1 (magnitude (sint32 n))) (hex2 (magnitude (sint32 n))) (hex3 (magnitude (sint32 n)))
  simp only [decide_eq_true_eq] at h
  rw [← hex0_eq, ← hex1_eq, ← hex2_eq]
  exact h

/-! ### MIRROR_NONDIGIT_WRITES at its other value (42_display_ops R105, R125 (d)) -/

/-- The parameter decides whether SEGBUF is written, never what is sent. -/
theorem writeRaw_trace (mirror : Bool) (p : Int) (d : Byte) (c : Copy) :
    (writeRaw mirror p d c).trace = (writeRaw false p d c).trace := by
  cases mirror
  · rfl
  · rw [writeRaw_true_eq, writeRaw_false_eq]
    rfl

/-- Settles O37: WriteRaw without the mirror is the addressed write alone. -/
theorem withoutMirrorRawWritesLeaveSegbuf : Obligations.WithoutMirrorRawWritesLeaveSegbuf :=
  fun position d _ c _ =>
    ⟨congrArg Copy.arch (writeRaw_false_eq position d c), writeAddressedByte_trace position d c,
      congrArg Copy.arch (writeRaw_false_eq ..), (writeRaw_trace true ..).symm⟩

/-! ### The trace of every command (42_display_ops R132, R134) -/

/-- Addressed writes emit 119 events each (41_framed_commands R101). -/
theorem framesTrace_writes_length (a : Arch) (ws : List (Int × Byte)) :
    (framesTrace (ws.flatMap fun w => addressedFrames a w.1 w.2)).length = 119 * ws.length := by
  induction ws with
  | nil => rfl
  | cons w ws ih =>
    rw [List.flatMap_cons, framesTrace_append, List.length_append, ih, framesTrace_addressedFrames_length,
      List.length_cons]
    omega

/-- The data frame and the control frame emit 31 events each (41_framed_commands R101). -/
theorem framesTrace_sendBoth_length (a : Arch) : (framesTrace [dataFrame, ctrlFrame a]).length = 62 := by
  simp [framesTrace_cons, dataFrame, ctrlFrame]

theorem zeroWrites_length (n : Nat) : (zeroWrites n).length = n := by
  simp [zeroWrites]

/-- Settles O40: the frames of each command counted, and the exception, which emits nothing. -/
theorem hostCommandTraceLengths : Obligations.HostCommandTraceLengths := by
  refine ⟨fun i s hi hp => ?_, fun w s why hw => ⟨_, acceptWord_of_error ⟨why, hw⟩ s, rfl, rfl⟩⟩
  obtain ⟨e, rest, ht, hx⟩ := exec_host_busy hi hp
  refine ⟨e, rest, _, hx, ?_⟩
  rw [← ht]
  cases i with
  | init _ | clear => exact (framesTrace_writes_length ..).trans (congrArg (119 * ·) (zeroWrites_length _))
  | intensity _ | on | off => exact framesTrace_sendBoth_length _
  | showdig _ _ | showdp _ _ | shownum _ | showhex _ => exact framesTrace_writes_length ..
  | dataCmd | addrCmd _ | dispCtrl _ | segData _ => cases hi

/-- The last frame of addressed writes is the control frame of the last of them. -/
theorem getLast?_writes {a : Arch} {ws : List (Int × Byte)}
    (h : (ws.flatMap fun w => addressedFrames a w.1 w.2) ≠ []) :
    (ws.flatMap fun w => addressedFrames a w.1 w.2).getLast? = some (ctrlFrame a) := by
  obtain rfl | ⟨ws', w, rfl⟩ := List.eq_nil_or_concat ws
  · exact absurd rfl h
  · simp [addressedFrames]

/-- The last frame of a host command is F_CTRL with the registers it sends (42_display_ops R134). -/
theorem getLast?_commandFrames {i : Instr} {cfg : Operand} {a : Arch} (hi : i.isHost = true)
    (h : posCntLegal a.posCnt = true) :
    (commandFrames i cfg a).getLast? = some (ctrlFrame (commandRegs i cfg a)) := by
  have hne := commandFrames_ne_nil (cfg := cfg) hi h
  cases i with
  | intensity _ | on | off => rfl
  | init _ | showdig _ _ | shownum _ | showhex _ | showdp _ _ | clear => exact getLast?_writes hne
  | dataCmd | addrCmd _ | dispCtrl _ | segData _ => cases hi

/-- The control byte a command sends is that of the registers it leaves (42_display_ops R134). -/
theorem ctrlByte_commandPost (i : Instr) (cfg : Operand) (a : Arch) :
    ctrlByte (commandPost i cfg a) = ctrlByte (commandRegs i cfg a) := rfl

/-- Settles O41: the monitor reads the frames back, and every frame leaves the lines high. -/
theorem monitorReadsEveryCommandBack : Obligations.MonitorReadsEveryCommandBack := by
  intro i s hi hp
  have hne := commandFrames_ne_nil (cfg := s.ports.cfgInitIntensity) hi hp
  obtain ⟨e, rest, ht, hx⟩ := exec_host_busy hi hp
  refine ⟨e, rest, _, hx, ?_⟩
  rw [← ht, monitorFrames_framesTrace, getLast?_commandFrames hi hp, ctrlByte_commandPost]
  have hlines (v : Bool) := Arch.afterTrace_framesTrace { s.arch with lineClk := v, lineDio := v } hne
  exact ⟨rfl, rfl, rfl, rfl, fun v => ⟨congrArg Arch.lineClk (hlines v), congrArg Arch.lineDio (hlines v)⟩⟩

/-! ### The registers each instruction may write (42_display_ops R133) -/

/-- SEGBUF after a number's writes, away from them. -/
theorem memRead_mirrorWrites_digitWrites_ne {n : BitVec 3} {p : Nat} (h0 : p ≠ wrap n 0) (h1 : p ≠ wrap n 1)
    (h2 : p ≠ wrap n 2) (h3 : p ≠ wrap n 3) (negative : Bool) (d0 d1 d2 d3 : Nat) (m : Memory) :
    memRead (mirrorWrites n (digitWrites negative d0 d1 d2 d3) m) p = memRead m p :=
  memRead_mirrorWrites_of_notMem _ (by simp [digitWrites, h0, h1, h2, h3]) m

/-- `busy_of_launched` for the next state an instruction is known to answer. -/
theorem eq_busy_of_launched {i : Instr} {s t : State} {trace : List Event} {post : Arch} (h : exec i s = .next t)
    (hne : trace ≠ []) (hx : exec i s = .next (launched s trace post)) :
    ∃ e rest, t = { s with ready := false, seq := .busy e rest post } := by
  obtain ⟨e, rest, hb⟩ := busy_of_launched hne hx
  exact ⟨e, rest, Host.Outcome.next.inj (h.symm.trans hb)⟩

/-- A host command that answers a next state sends `commandFrames` and commits `commandPost`: INIT, INTENSITY, ON and
OFF on every state, the others on a legal position count, outside which they stop. -/
theorem exec_host_eq_of_next {i : Instr} {s t : State} (hi : i.isHost = true) (h : exec i s = .next t) :
    commandFrames i s.ports.cfgInitIntensity s.arch ≠ [] ∧
      exec i s = .next (launched s (framesTrace (commandFrames i s.ports.cfgInitIntensity s.arch))
        (commandPost i s.ports.cfgInitIntensity s.arch)) := by
  cases i with
  | init count => exact ⟨commandFrames_init_ne_nil count _ s.arch, exec_init_eq count s⟩
  | intensity level => exact ⟨List.cons_ne_nil _ _, exec_intensity_eq level s⟩
  | on => exact ⟨List.cons_ne_nil _ _, exec_on_eq s⟩
  | off => exact ⟨List.cons_ne_nil _ _, exec_off_eq s⟩
  | showdig _ _ | shownum _ | showhex _ | showdp _ _ | clear =>
    have hp := (launchWrapping_eq_next h).1
    exact ⟨commandFrames_ne_nil hi hp, exec_host_eq hi hp⟩
  | dataCmd | addrCmd _ | dispCtrl _ | segData _ => cases hi

/-- A wire byte that answers a next state commits the registers as they are, but for the lines
(41_framed_commands R103). -/
theorem exec_wire_eq_of_next {i : Instr} {s t : State} (hi : i.isHost = false) (h : exec i s = .next t) :
    ∃ trace clk dio, trace ≠ [] ∧
      exec i s = .next (launched s trace { s.arch with lineClk := clk, lineDio := dio }) := by
  cases i with
  | dataCmd => exact ⟨_, _, _, List.cons_ne_nil _ _, exec_dataCmd_eq s⟩
  | addrCmd address =>
    exact ⟨_, _, _, List.cons_ne_nil _ _, exec_addrCmd_eq address (launchWrapping_eq_next h).1⟩
  | dispCtrl low => exact ⟨_, _, _, List.cons_ne_nil _ _, exec_dispCtrl_eq low s⟩
  | segData code => exact ⟨_, _, _, List.cons_ne_nil _ _, exec_segData_eq code s⟩
  | init _ | intensity _ | showdig _ _ | shownum _ | showhex _ | showdp _ _ | clear | on | off => cases hi

/-- INTENSITY writes DISP_ON and, from 1 on, BRIGHT (42_display_ops R133). -/
theorem commandPost_intensity_frame (level cfg : Operand) (a : Arch) :
    (commandPost (.intensity level) cfg a).posCnt = a.posCnt ∧
      (commandPost (.intensity level) cfg a).segBuf = a.segBuf ∧
      (sint32 level < 1 → (commandPost (.intensity level) cfg a).bright = a.bright) := by
  by_cases hv : sint32 level < 1
  · simp [commandPost, commandRegs, commandWrites, mirrorWrites, hv]
  · simp [commandPost, commandRegs, commandWrites, mirrorWrites, hv]

/-- Settles O42: what each host command leaves of `commandPost`, and the four wire bytes. -/
theorem registersEachInstructionMayWrite : Obligations.RegistersEachInstructionMayWrite := by
  intro i s t h
  cases hi : i.isHost with
  | false =>
    obtain ⟨trace, clk, dio, hne, hx⟩ := exec_wire_eq_of_next hi h
    obtain ⟨e, rest, rfl⟩ := eq_busy_of_launched h hne hx
    refine ⟨e, rest, _, rfl, rfl, ?_⟩
    cases i with
    | dataCmd | addrCmd _ | dispCtrl _ | segData _ => exact ⟨rfl, rfl, rfl, rfl⟩
    | init _ | intensity _ | showdig _ _ | shownum _ | showhex _ | showdp _ _ | clear | on | off => cases hi
  | true =>
    obtain ⟨hne, hx⟩ := exec_host_eq_of_next hi h
    obtain ⟨e, rest, rfl⟩ := eq_busy_of_launched h (framesTrace_ne_nil hne) hx
    refine ⟨e, rest, _, rfl, commandPost_ill .., ?_⟩
    cases i with
    | init _ => rfl
    | intensity level => exact commandPost_intensity_frame level _ s.arch
    | on | off => exact ⟨rfl, rfl, rfl⟩
    | showdig _ _ | showdp _ _ => exact ⟨rfl, rfl, rfl, fun p hp => memRead_memWrite_ne hp _ s.arch.segBuf⟩
    | shownum _ | showhex _ =>
      exact ⟨rfl, rfl, rfl, fun p h0 h1 h2 h3 =>
        memRead_mirrorWrites_digitWrites_ne h0 h1 h2 h3 _ _ _ _ _ s.arch.segBuf⟩
    | clear => exact ⟨rfl, rfl, rfl, fun p hp => memRead_mirrorWrites_zeroWrites_of_le hp s.arch.segBuf⟩
    | dataCmd | addrCmd _ | dispCtrl _ | segData _ => cases hi

end Sys2Proof.Machine
end

section
/-! PROOFS. The exception of 60_exceptions: the step that accepts an illegal word, that no step under the invariant
stops, and that the host has no move that writes the lines. -/

namespace Sys2Proof.Machine

/-! ### A step in IDLE that accepts, and one that does not -/

/-- A word offered while READY is 1 is accepted (10_state R31). -/
theorem step_of_offer {s : State} (hq : s.ports.reset = false) (hs : s.seq = .idle) (hr : s.ready = true)
    (hv : s.ports.cmdValid = true) : step s = mapNext advancePorts (acceptWord s.ports.cmdWord s) := by
  simp [step_of_idle hq hs, idleStep, hv, hr]

/-- Under the invariant an idle block is READY (10_state R36). -/
theorem Inv.ready_of_idle {s : State} (h : Inv s) (hs : s.seq = .idle) : s.ready = true := by
  obtain ⟨-, hready, -⟩ := h
  exact hready.2 hs

/-- Settles O46: the rejected word raises IllegalCommand, and the environment moves on. -/
theorem illegalCommandStep : Obligations.IllegalCommandStep := by
  intro s why hq hs hr hv hd
  have hstep : step s = .next (advancePorts (raiseIllegalCommand s)) := by
    rw [step_of_offer hq hs hr hv, acceptWord_of_error ⟨why, hd⟩, mapNext_next]
  refine ⟨_, hstep, ?_⟩
  simp [raiseIllegalCommand_eq]

/-! ### No step stops -/

/-- On a legal position count every word is taken: it is a host command, which completes, or IllegalCommand
(60_exceptions R135, R137). -/
theorem exists_acceptWord_eq_next {s : State} (hp : posCntLegal s.arch.posCnt = true) (w : CommandWord) :
    ∃ t, acceptWord w s = .next t := by
  obtain ⟨i, hi, hw⟩ | ⟨why, -, hw⟩ := acceptWord_cases w s
  · exact ⟨_, hw.trans (exec_host_eq (isHost_of_decodeHost hi) hp)⟩
  · exact ⟨_, hw⟩

/-- Settles O57: of the SEQ values under the invariant, CONSTRUCT and IDLE accept a word and BUSY emits. -/
theorem noReachableStepStops : Obligations.NoReachableStepStops := by
  intro s hinv
  have hl : s.arch.Legal := hinv.1
  have haccept := exists_acceptWord_eq_next hl.1
  cases hq : s.ports.reset with
  | true => exact ⟨_, step_of_reset hq⟩
  | false =>
    cases hs : s.seq with
    | construct =>
      obtain ⟨t, ht⟩ := haccept (constructWord s)
      exact ⟨_, by rw [step_of_construct hq hs, ht, mapNext_next]⟩
    | idle =>
      cases hv : s.ports.cmdValid with
      | true =>
        obtain ⟨t, ht⟩ := haccept s.ports.cmdWord
        exact ⟨_, by rw [step_of_offer hq hs (hinv.ready_of_idle hs) hv, ht, mapNext_next]⟩
      | false =>
        obtain ⟨t, hstep, -⟩ := idleStepHolds s hq hs hv
        exact ⟨t, hstep⟩
    | busy e rest post => exact ⟨_, step_of_busy hq hs⟩
    | transport b => exact (hinv.seqConsistent hs).elim

/-! ### The host and the lines -/

/-- A step from IDLE writes no line: it accepts a word, which only starts a trace, or changes nothing. -/
theorem step_idle_frame {s t : State} (hq : s.ports.reset = false) (hs : s.seq = .idle) (h : step s = .next t) :
    t.arch.lineClk = s.arch.lineClk ∧ t.arch.lineDio = s.arch.lineDio ∧ t.trace = s.trace := by
  rw [step_of_idle hq hs] at h
  obtain ⟨u, hu, rfl⟩ := mapNext_eq_next h
  unfold idleStep at hu
  split at hu
  · obtain ⟨htrace, hclk, hdio⟩ := acceptWord_next hu
    simp [htrace, hclk, hdio]
  · cases hu
    simp

/-- An accepted word leaves SEQ BUSY, or IDLE when it is IllegalCommand (10_state R31). -/
theorem acceptWord_next_seq_ne_transport {w : CommandWord} {s t : State} (h : acceptWord w s = .next t)
    (b : WireByte) : t.seq ≠ .transport b := by
  obtain ⟨i, -, hw⟩ | ⟨why, -, hw⟩ := acceptWord_cases w s
  · obtain ⟨e, rest, post, rfl⟩ := exec_next_busy (hw ▸ h)
    exact Seq.noConfusion
  · cases hw ▸ h
    exact Seq.noConfusion

/-- An emission leaves SEQ BUSY, or IDLE after the last event (10_state R31). -/
theorem emitStep_seq_ne_transport (e : Event) (rest : List Event) (post : Arch) (s : State) (b : WireByte) :
    (emitStep e rest post s).seq ≠ .transport b := by
  cases rest with
  | nil => simp [emitStep_last]
  | cons e' rest' => simp [emitStep_more]

/-- No case of the step ends in the model's own SEQ value (log entry 2). -/
theorem step_seq_ne_transport {s t : State} (h : step s = .next t) (b : WireByte) : t.seq ≠ .transport b := by
  obtain ⟨u, rfl, hcase⟩ := step_cases h
  rw [advancePorts_seq]
  obtain ⟨-, rfl⟩ | ⟨-, -, ha⟩ | ⟨-, e, rest, post, -, rfl⟩ | ⟨-, -, -, ha⟩ | ⟨-, hs, -, rfl⟩ | ⟨-, b', -, ha⟩ := hcase
  · exact Seq.noConfusion
  · exact acceptWord_next_seq_ne_transport ha b
  · exact emitStep_seq_ne_transport e rest post s b
  · exact acceptWord_next_seq_ne_transport ha b
  · simp [hs]
  · obtain ⟨e, rest, post, rfl⟩ := acceptWire_next ha
    exact Seq.noConfusion

/-- Under the invariant a step from IDLE answers a next state and writes no line; with no command offered it leaves
every register (10_state R31, 60_exceptions R149). -/
theorem exists_step_idle_frame {s : State} (hinv : Inv s) (hs : s.seq = .idle) (hq : s.ports.reset = false) :
    ∃ t, step s = .next t ∧ t.arch.lineClk = s.arch.lineClk ∧ t.arch.lineDio = s.arch.lineDio ∧ t.trace = s.trace ∧
      (s.ports.cmdValid = false → t.ready = true ∧ t.seq = .idle ∧ t.arch = s.arch) := by
  obtain ⟨t, hstep⟩ := noReachableStepStops s hinv
  obtain ⟨hclk, hdio, htrace⟩ := step_idle_frame hq hs hstep
  refine ⟨t, hstep, hclk, hdio, htrace, fun hv => ?_⟩
  obtain ⟨u, hidle, harch, hready, hseq, -⟩ := idleStepHolds s hq hs hv
  cases hstep.symm.trans hidle
  exact ⟨hready.trans (hinv.ready_of_idle hs), hseq, harch⟩

/-- Settles O59: the invariant does not speak of the inputs, so it holds whatever they are when the step is taken. -/
theorem noHostMoveWritesTheLines : Obligations.NoHostMoveWritesTheLines :=
  ⟨fun s ports future hinv => exists_step_idle_frame (s := { s with ports := ports, future := future }) hinv,
    fun _ _ b h => step_seq_ne_transport h b⟩

end Sys2Proof.Machine
end

section
/-! PROOFS. Reset and the run of a command of 70_reset_and_hazards: what a step with RESET high leaves, that only INIT
reads the configuration inputs, and the steps from the acceptance of a command, or from reset, to READY = 1. -/

namespace Sys2Proof.Machine

/-! ### Reset (70_reset_and_hazards R150) -/

/-- Settles O43: each register as `Arch.atReset` lists it, an empty SEGBUF reading as 0x00. -/
theorem resetStateValues : Obligations.ResetStateValues :=
  ⟨rfl, rfl, rfl, fun p _ => memRead_nil p, rfl, rfl, rfl, rfl, rfl⟩

/-- Settles O55: a reset step leaves the invariant, and one from the reset state leaves the reset state. -/
theorem invariantAtReset : Obligations.InvariantAtReset :=
  inv_resetStep State.reset

/-- Settles O44: the step with RESET high is the reset step, then the environment's, which moves no register. -/
theorem resetStepWins : Obligations.ResetStepWins := by
  intro s hr
  refine ⟨_, step_of_reset hr, ?_⟩
  rw [advancePorts_arch, advancePorts_ready, advancePorts_seq, advancePorts_trace, resetStep_arch]
  exact ⟨rfl, rfl, rfl, memRead_nil, rfl, rfl, rfl, rfl, rfl, rfl⟩

/-! ### What an instruction reads of the input ports (70_reset_and_hazards R158) -/

/-- The state with other values on its input ports. -/
def State.mapPorts (f : Ports → Ports) (s : State) : State := { s with ports := f s.ports }

theorem accept_mapPorts (f : Ports → Ports) (s : State) (c : Copy) :
    accept (s.mapPorts f) c = (accept s c).mapPorts f := by
  unfold accept
  cases c.trace <;> rfl

/-- An operation runs on a copy of the registers, and the copy holds no input port (30_encoding R70). -/
theorem launch_mapPorts (op : Copy → Copy) (f : Ports → Ports) (s : State) :
    launch op (s.mapPorts f) = mapNext (State.mapPorts f) (launch op s) :=
  congrArg Host.Outcome.next (accept_mapPorts f s (op (copyOf s)))

theorem launchWrapping_of_legal {s : State} (h : posCntLegal s.arch.posCnt = true) (op : Copy → Copy) :
    launchWrapping op s = launch op s :=
  if_pos h

theorem launchWrapping_mapPorts (op : Copy → Copy) (f : Ports → Ports) (s : State) :
    launchWrapping op (s.mapPorts f) = mapNext (State.mapPorts f) (launchWrapping op s) := by
  cases h : posCntLegal s.arch.posCnt with
  | false => rw [launchWrapping_of_illegal h, launchWrapping_of_illegal (s := s.mapPorts f) h, mapNext_fault]
  | true => rw [launchWrapping_of_legal h, launchWrapping_of_legal (s := s.mapPorts f) h, launch_mapPorts]

/-- Every instruction but INIT reads no input port at all: the others run an operation that is given
the copy alone. -/
theorem exec_mapPorts {i : Instr} (hi : ∀ a, i ≠ .init a) (f : Ports → Ports) (s : State) :
    exec i (s.mapPorts f) = mapNext (State.mapPorts f) (exec i s) := by
  cases i with
  | init count => exact absurd rfl (hi count)
  | intensity _ | on | off | dataCmd | dispCtrl _ => exact launch_mapPorts _ f s
  | segData code => exact launch_mapPorts (fun c => writeByte code c |> stop) f s
  | showdig _ _ | shownum _ | showhex _ | showdp _ _ | clear | addrCmd _ => exact launchWrapping_mapPorts _ f s

/-- Settles O51: the two configuration inputs are ports. -/
theorem onlyInitReadsTheConfiguration : Obligations.OnlyInitReadsTheConfiguration :=
  fun _ s cfg count hi =>
    exec_mapPorts hi (fun p => { p with cfgInitIntensity := cfg, cfgPositionCount := count }) s

/-! ### From acceptance to READY = 1 (70_reset_and_hazards R162)

`s` is a state whose coming step accepts the host command `i`: offered to an idle block, or INIT in CONSTRUCT. -/

section

variable {s : State} {i : Instr} (hi : i.isHost = true) (hp : posCntLegal s.arch.posCnt = true)
  (hstep : step s = mapNext advancePorts (exec i s))
  (hq : QuietFor ((framesTrace (commandFrames i s.ports.cfgInitIntensity s.arch)).length + 1) s)

include hi hp hstep hq

/-- The acceptance step leaves the command's trace to emit, its registers pending, and nothing else changed. -/
theorem step_accepts_host :
    ∃ t e rest, framesTrace (commandFrames i s.ports.cfgInitIntensity s.arch) = e :: rest ∧
      step s = .next t ∧ t.seq = .busy e rest (commandPost i s.ports.cfgInitIntensity s.arch) ∧ t.ready = false ∧
      t.arch = s.arch ∧ t.trace = s.trace ∧ QuietFor (rest.length + 1) t := by
  obtain ⟨e, rest, ht, hx⟩ := exec_host_busy hi hp
  rw [ht] at hq
  exact ⟨_, e, rest, ht, hstep.trans (congrArg (mapNext advancePorts) hx), advancePorts_seq _, advancePorts_ready _,
    advancePorts_arch _, advancePorts_trace _, hq.advance rfl rfl⟩

/-- The pending registers of a host command have the lines its trace leaves, so its last step commits them whole
(42_display_ops R133, R134). -/
theorem run_host_commit :
    ∃ u : State,
      Host.Core.run Sys2Proof.core
        ((framesTrace (commandFrames i s.ports.cfgInitIntensity s.arch)).length + 1) s = .next u ∧
      u.ready = true ∧ u.seq = .idle ∧
      u.trace = s.trace ++ framesTrace (commandFrames i s.ports.cfgInitIntensity s.arch) ∧
      u.arch = commandPost i s.ports.cfgInitIntensity s.arch := by
  have hlines := s.arch.afterTrace_framesTrace (commandFrames_ne_nil (cfg := s.ports.cfgInitIntensity) hi hp)
  obtain ⟨t, e, rest, ht, hacc, hbusy, -, hta, htt, hqt⟩ := step_accepts_host hi hp hstep hq
  rw [ht] at hlines ⊢
  obtain ⟨u, hrun, hready, hseq, htrace, harch⟩ := run_busy_commit hbusy hqt
  rw [hta, hlines] at harch
  rw [htt] at htrace
  exact ⟨u, (run_succ_of_step hacc _).trans hrun, hready, hseq, htrace, harch⟩

/-- READY is 0 after the acceptance step and after every event but the last (10_state R31). -/
theorem run_host_not_ready {j : Nat}
    (hj : j < (framesTrace (commandFrames i s.ports.cfgInitIntensity s.arch)).length) :
    ∃ u : State, Host.Core.run Sys2Proof.core (j + 1) s = .next u ∧ u.ready = false := by
  obtain ⟨t, e, rest, ht, hacc, hbusy, htr, -, -, hqt⟩ := step_accepts_host hi hp hstep hq
  rw [ht] at hj
  obtain ⟨u, hrun, hready, -, -⟩ := run_busy_prefix hbusy htr hqt (Nat.le_of_lt_succ hj)
  exact ⟨u, (run_succ_of_step hacc j).trans hrun, hready⟩

end

/-- Settles O53: the offered word is accepted in the first step, and the rest is its run. -/
theorem legalCommandRunsToCompletion : Obligations.LegalCommandRunsToCompletion := by
  intro s i hi hp hs hr hv hd trace hq
  have hstep : step s = mapNext advancePorts (exec i s) :=
    stepRunsTheDecodedInstruction.1 s i hq.1 hs hr hv hd
  obtain ⟨u, hrun, hready, hseq, htrace, harch⟩ := run_host_commit hi hp hstep hq
  exact ⟨_, exec_host_eq hi hp, u, hrun, harch, hready, hseq, htrace⟩

/-! ### The construction run (70_reset_and_hazards R151, R152) -/

/-- INIT sends an addressed write of 0x00 to each position, ascending, DISP_ON already set (42_display_ops R107). -/
theorem commandFrames_init_eq (count cfg : Operand) (a : Arch) :
    commandFrames (.init count) cfg a =
      (List.range (posCount (sint32 count)).toNat).flatMap fun (p : Nat) =>
        awFrames (0x88 ||| initBrightness cfg) p 0x00 := by
  have h := zeroWrites_frames (commandRegs (.init count) cfg a)
  rwa [ctrlByte_of_on rfl] at h

theorem framesTrace_commandFrames_init_length (count cfg : Operand) (a : Arch) :
    (framesTrace (commandFrames (.init count) cfg a)).length = 119 * (posCount (sint32 count)).toNat :=
  (framesTrace_writes_length ..).trans (congrArg (119 * ·) (zeroWrites_length _))

/-- Settles O54: the step in CONSTRUCT accepts INIT with CFG_POSITION_COUNT, and the rest is its run. -/
theorem constructionRun : Obligations.ConstructionRun := by
  intro ports future s₀ n bright hq
  have hp : posCntLegal s₀.arch.posCnt = true := (by decide : posCntLegal 4 = true)
  have hstep : step s₀ = mapNext advancePorts (exec (.init ports.cfgPositionCount) s₀) :=
    stepRunsTheDecodedInstruction.2.2 s₀ hq.1 rfl
  have hlen : (framesTrace (commandFrames (.init ports.cfgPositionCount) ports.cfgInitIntensity s₀.arch)).length =
      119 * n.toNat := framesTrace_commandFrames_init_length ..
  rw [← hlen] at hq ⊢
  refine ⟨fun j hj => ?_, ?_⟩
  · cases j with
    | zero => exact ⟨s₀, rfl, rfl⟩
    | succ j => exact run_host_not_ready rfl hp hstep hq hj
  · obtain ⟨u, hrun, hready, hseq, htrace, harch⟩ := run_host_commit rfl hp hstep hq
    exact ⟨u, hrun, hready, hseq, harch, htrace.trans (congrArg framesTrace (commandFrames_init_eq ..))⟩

end Sys2Proof.Machine
end
